-- ==== Sys2Proof/Word.lean ====
section
/-! DEFINITION. The word types of the block (00_scope.md R11, R15; 30_encoding.md R84). -/

namespace Sys2Proof

/-- One received byte (R26). -/
abbrev Byte := BitVec 8

/-- A value of the 32-bit microsecond clock, or a difference of two such values (R11 TS_WIDTH, R203). -/
abbrev Micros := BitVec 32

/-- A 16-bit decoded value in tenths of a unit: unsigned for humidity, two's complement for
temperature (R12). -/
abbrev Tenths := BitVec 16

/-- The 35-bit event word EV, operation code in bits 34..32 and clock sample in bits 31..0 (R84). -/
abbrev EventWord := BitVec 35

/-- Bytes per frame, FRAME_BYTES of R11. -/
abbrev frameBytes : Nat := 5

/-- Bits per frame, FRAME_BITS of R11. -/
abbrev frameBits : Nat := 40

/-- The five bytes of the accumulator, byte 0 first (R26, R50). -/
abbrev Data := Vector Byte frameBytes

/-- The cleared accumulator, five zero bytes (R26, R150). -/
def zeroData : Data := #v[0, 0, 0, 0, 0]

end Sys2Proof
end

