-- ==== Sys2Proof/Config.lean ====
section
/-! DEFINITION. The implementation parameters of 00_scope.md R11 and the free values of the model. -/

namespace Sys2Proof

/-- Order of a START and an EDGE presented together (R11 SIMUL_ORDER, R193). -/
inductive SimulOrder where
  | edgeFirst
  | startFirst
  | either
  deriving DecidableEq, Repr

/-- The parameters one instance of the block is built with (R11). They are constants of the instance
and no operation writes them (R69). TS_WIDTH, FRAME_BYTES and FRAME_BITS are fixed and stand in
Word.lean as `Micros`, `frameBytes` and `frameBits`. -/
structure Params where
  ackMin : Micros
  ackMax : Micros
  bitMin : Micros
  bitMax : Micros
  bitThreshold : Micros
  tTriggerUs : Micros
  tSettleUs : Micros
  humReset : Tenths
  tempReset : Tenths
  simulOrder : SimulOrder
  deriving DecidableEq, Repr

/-- The ranges R11 gives: `ACK_MIN <= ACK_MAX` and `BIT_MIN <= BIT_THRESHOLD < BIT_MAX`. -/
def Params.wf (p : Params) : Bool :=
  decide (p.ackMin ≤ p.ackMax ∧ p.bitMin ≤ p.bitThreshold ∧ p.bitThreshold < p.bitMax)

/-- T_TRIGGER_US, OPEN in R11: no value (log entry 3). -/
opaque Config.tTriggerUs : Micros

/-- T_SETTLE_US, OPEN in R11: no value (log entry 3). -/
opaque Config.tSettleUs : Micros

/-- HUM_RESET, OPEN in R11 and R216: no value (log entry 3). -/
opaque Config.humReset : Tenths

/-- TEMP_RESET, OPEN in R11 and R216: no value (log entry 3). -/
opaque Config.tempReset : Tenths

/-- FREE VALUE (log entry 1). Whether the edge goes first when R193 admits both orders of two
operations presented together, drawn with a counter of State. -/
opaque Config.freeEdgeFirst : Nat → Bool

/-- The defaults of R11: the five window constants and SIMUL_ORDER; the OPEN parameters have no value
(log entries 2 and 3). -/
def Params.defaults : Params where
  ackMin := 125
  ackMax := 190
  bitMin := 60
  bitMax := 145
  bitThreshold := 100
  tTriggerUs := Config.tTriggerUs
  tSettleUs := Config.tSettleUs
  humReset := Config.humReset
  tempReset := Config.tempReset
  simulOrder := .either

end Sys2Proof
end

