-- ==== Sys2Proof/Machine/State.lean ====
section
/-! DEFINITION. The state of the block, what the environment presents to it, and how a step can stop. -/

namespace Sys2Proof.Machine

/-- The phase of the decode state machine (10_state.md R22). -/
inductive Status where
  | wakingUp
  | reading
  | done
  | invalid
  deriving DecidableEq, Repr

/-- The outcome of the most recently completed attempt (10_state.md R24). -/
inductive Result where
  | none
  | ok
  | checksumMismatch
  | wakeUpError
  | dataError
  deriving DecidableEq, Repr

/-- The state S of one block, 115 bits (10_state.md R20). -/
@[ext]
structure Block where
  /-- R22 -/
  status : Status
  /-- R24 -/
  result : Result
  /-- R26 -/
  data : Data
  /-- R27 -/
  bitIndex : BitVec 3
  /-- R28 -/
  byteIndex : BitVec 3
  /-- R29 -/
  lastEdgeTimestamp : Micros
  /-- R32, two's complement -/
  temperature : Tenths
  /-- R33, unsigned -/
  humidity : Tenths
  deriving DecidableEq, Repr

/-- An action the block hands to the platform (60_exceptions.md R206). -/
inductive Action where
  | driveLow
  | delay (us : Micros)
  | release
  deriving DecidableEq, Repr

/-- The value one operation returns to its issuer (30_encoding.md R87). -/
inductive Output where
  | started (b : Bool)
  | status (v : Status)
  | result (v : Result)
  | temperature (v : Tenths)
  | humidity (v : Tenths)
  deriving DecidableEq, Repr

/-- The operations only the caller issues (30_encoding.md R85, column issuer). -/
inductive CallerOp where
  | start
  | state
  | lastResult
  | getTemp
  | getHumidity
  deriving DecidableEq, Repr

/-- The six operations of 30_encoding.md R85. The issuer is part of the operation, so the edge source
cannot form a START (60_exceptions.md R201). -/
inductive Operation where
  | caller (op : CallerOp)
  | edge
  deriving DecidableEq, Repr

/-- What the caller can present together with an edge (60_exceptions.md R193). -/
inductive CallerRequest where
  /-- an operation issued on its own -/
  | op (op : CallerOp)
  /-- a BLOCKING_READ, whose first operation is START (R114) -/
  | blockingRead
  /-- the next operation of the BLOCKING_READ in progress (R63, R114) -/
  | turn
  deriving DecidableEq, Repr

/-- What the environment can present (log entry 5). -/
inductive Event where
  /-- an event word (R84), from the agent its operation code names (R85) -/
  | word (w : EventWord)
  /-- a caller request and a falling edge in one instant, with one clock sample (R98, R193) -/
  | together (req : CallerRequest) (now : Micros)
  /-- the caller begins a BLOCKING_READ whose START samples the clock at `now` (R114) -/
  | blockingRead (now : Micros)
  /-- the caller, inside a BLOCKING_READ, issues the next operation of its expansion (R63, R114) -/
  | callerTurn
  /-- reset (R215) -/
  | reset
  deriving DecidableEq, Repr

/-- Where the caller stands in the expansion of BLOCKING_READ (40_start_and_blocking_read.md R114). -/
inductive CallerPhase where
  /-- no BLOCKING_READ in progress -/
  | idle
  /-- START has been issued; STATE is repeated until it returns a terminal status -/
  | polling
  /-- a terminal status was seen; LAST_RESULT comes next -/
  | collecting
  deriving DecidableEq, Repr

/-- The machine. `block` is the state S of the spec; the other fields are the model's own: the
instance's parameters (log entry 2), what the environment presents (log entry 5), what the last
operation handed out (log entry 11), the caller's BLOCKING_READ (log entry 10) and the counter of
free ordering choices (log entry 1). -/
@[ext]
structure State where
  params : Params
  block : Block
  inputs : List Event
  output : Option Output
  actions : List Action
  caller : CallerPhase
  blockingReturn : Option Result
  draws : Nat
  deriving DecidableEq, Repr

/-- Why the machine stops with a fault. -/
inductive Fault where
  /-- Raised by EDGE.BIT0 and EDGE.BIT1 in status Reading with `byte_index` above 4, where
  43_sensor_data_accumulator.md R153's precondition is broken; R36 and R151 say it never happens.
  Safe: the model stops (log entry 9). -/
  | cursorOutOfRange
  deriving DecidableEq, Repr

/-- Why a step has no meaning. -/
inductive Refusal where
  /-- Raised by an arm of `exec` whose instruction has no meaning yet; no arm does. Safe. -/
  | notModelled (mnemonic : String)
  /-- Raised by the step on an event word with operation code 6 or 7, which "a model refuses"
  (30_encoding.md R93, 93_implementation_defined.md U12). Safe: hardware ignores the request (log entry 7). -/
  | reservedOperation (code : BitVec 3)
  /-- Raised by an operation form applied in a state whose status or `elapsed` does not select it
  (30_encoding.md R88); the step never raises it, since decoding selects the form. Safe (log entry 8). -/
  | formNotSelected
  /-- Raised by the step when nothing is pending and no BLOCKING_READ is in progress: no agent has a
  step (00_scope.md R14, 93_implementation_defined.md U9 "stuck"). Safe (log entry 6). -/
  | noEvent
  /-- Raised by the step when a second caller operation is presented, alone or with an edge, during a
  BLOCKING_READ: the model has one caller (60_exceptions.md R201, 93_implementation_defined.md U14 "refuse"). Safe (log entry 10). -/
  | callerBusy
  /-- Raised by the step on a caller turn, alone or with an edge, when no BLOCKING_READ is in progress.
  Safe (log entry 10). -/
  | callerIdle
  deriving DecidableEq, Repr

/-- The reset state of the block, field by field (70_reset_and_hazards.md R216). The four hidden fields
are unspecified there; the values are those R35 allows a model to take (DESIGN CHOICE, log entry 4). -/
def Block.reset (p : Params) : Block where
  status := .invalid
  result := .none
  data := zeroData
  bitIndex := 7
  byteIndex := 0
  lastEdgeTimestamp := 0
  temperature := p.tempReset
  humidity := p.humReset

/-- The machine right after reset: the block in the reset state of R216, nothing presented yet. -/
def State.reset : State where
  params := Params.defaults
  block := Block.reset Params.defaults
  inputs := []
  output := none
  actions := []
  caller := .idle
  blockingReturn := none
  draws := 0

end Sys2Proof.Machine
end

