-- ==== Sys2Proof/Machine/Operands.lean ====
section
/-! DEFINITION. Operand assembly: the fields of an event word, the elapsed interval and its
classification, the bits and bytes of the accumulator, and the physical values (30_encoding.md,
42_pulse_width_to_bit_decoder.md, 44_checksum_validator_and_value_decode.md). -/

namespace Sys2Proof.Machine

/-- `op = EV[34:32]` (R84, R89). -/
def opField (w : EventWord) : BitVec 3 := w.extractLsb' 32 3

/-- `now = EV[31:0]` (R84, R89). -/
def nowField (w : EventWord) : Micros := w.extractLsb' 0 32

/-- The event word with the given fields (R84). -/
def mkWord (op : BitVec 3) (now : Micros) : EventWord := op ++ now

/-- Operation codes (R85). -/
def opCode : Operation → BitVec 3
  | .caller .start => 0b000
  | .edge => 0b001
  | .caller .state => 0b010
  | .caller .lastResult => 0b011
  | .caller .getTemp => 0b100
  | .caller .getHumidity => 0b101

/-- The operation a code names, if any (R85); codes 6 and 7 name none (R93). -/
def operationOf (code : BitVec 3) : Option Operation :=
  match code.toNat with
  | 0 => some (.caller .start)
  | 1 => some .edge
  | 2 => some (.caller .state)
  | 3 => some (.caller .lastResult)
  | 4 => some (.caller .getTemp)
  | 5 => some (.caller .getHumidity)
  | _ => none

/-- The interval since the previous processed edge, `now -_32 S.last_edge_timestamp`, neither
truncated nor extended (R90, R121). -/
def elapsed (now : Micros) (b : Block) : Micros := now - b.lastEdgeTimestamp

/-- `InAckWindow` (R141). -/
def inAckWindow (p : Params) (e : Micros) : Bool := decide (p.ackMin ≤ e ∧ e ≤ p.ackMax)

/-- `InBitWindow` (R142). -/
def inBitWindow (p : Params) (e : Micros) : Bool := decide (p.bitMin ≤ e ∧ e ≤ p.bitMax)

/-- What one interval means in a given status (R140). -/
inductive Symbol where
  | ackOk
  | ackBad
  | bit0
  | bit1
  | bitBad
  | noSymbol
  deriving DecidableEq, Repr

/-- `Classify(status, elapsed)`, the part `pulse_width_to_bit_decoder` (R140, R142: the window test
comes before the threshold). -/
def classify (p : Params) (st : Status) (e : Micros) : Symbol :=
  match st with
  | .wakingUp => if inAckWindow p e then .ackOk else .ackBad
  | .reading =>
    if !inBitWindow p e then .bitBad
    else if p.bitThreshold < e then .bit1
    else .bit0
  | .done => .noSymbol
  | .invalid => .noSymbol

/-- Byte `i` of the accumulator, `S.data[i]` of R16, meant for `0 <= i <= 4`. -/
def byteOf (d : Data) (i : Nat) : Byte := d[i]?.getD 0

/-- Frame bit `k`: bit `7 - (k mod 8)` of byte `k div 8` (R51, R81). -/
def frameBit (d : Data) (k : Nat) : Bool := (byteOf d (k / 8)).getLsbD (7 - k % 8)

/-- The number of data bits received so far (R31). -/
def position (b : Block) : Nat := 8 * b.byteIndex.toNat + (7 - b.bitIndex.toNat)

/-- `DecodeHumidity(d) = {d[0], d[1]}` (R163). -/
def decodeHumidity (d : Data) : Tenths := byteOf d 0 ++ byteOf d 1

/-- The temperature magnitude `{0b0, d[2][6:0], d[3]}` (R164). -/
def temperatureMagnitude (d : Data) : Tenths := (byteOf d 2 &&& 0x7F#8) ++ byteOf d 3

/-- `DecodeTemperature(d)`: sign and magnitude on the wire, two's complement in the register (R164). -/
def decodeTemperature (d : Data) : Tenths :=
  if (byteOf d 2).getLsbD 7 then -temperatureMagnitude d else temperatureMagnitude d

end Sys2Proof.Machine
end

