-- ==== Sys2Proof/Machine/Flags.lean ====
section
/-! DEFINITION. The conditions and codes of the block: the idle test, the frame-complete test, the
checksum, and the numeric codes of `status` and `result` (10_state.md, 43_sensor_data_accumulator.md,
44_checksum_validator_and_value_decode.md). -/

namespace Sys2Proof.Machine

/-- Terminal status, "a reading may be started": Done or Invalid (R19, R110). -/
def isIdle : Status → Bool
  | .wakingUp => false
  | .reading => false
  | .done => true
  | .invalid => true

/-- The two-bit code of `status` (R23). -/
def statusCode : Status → BitVec 2
  | .wakingUp => 0b00
  | .reading => 0b01
  | .done => 0b10
  | .invalid => 0b11

/-- The three-bit code of `result` (R25). -/
def resultCode : Result → BitVec 3
  | .none => 0b000
  | .ok => 0b001
  | .checksumMismatch => 0b010
  | .wakeUpError => 0b011
  | .dataError => 0b100

/-- `FrameComplete() = (S.byte_index = 5)` (R155). -/
def frameComplete (b : Block) : Bool := b.byteIndex == 5

/-- `Sum8(d)`, 8-bit wraparound sum of the first four bytes (R161). -/
def sum8 (d : Data) : Byte := byteOf d 0 + byteOf d 1 + byteOf d 2 + byteOf d 3

/-- `ChecksumOk(d) = (Sum8(d) = d[4])`, the part `checksum_validator` (R162). -/
def checksumOk (d : Data) : Bool := sum8 d == byteOf d 4

end Sys2Proof.Machine
end

