-- ==== Sys2Proof/Machine/Ops.lean ====
section
/-! DEFINITION. The shared operations: the accumulator's writes, the edge prefix, raising an error,
the end of a frame, and completing an operation (20_memory.md, 41_edge_state_machine.md,
43_sensor_data_accumulator.md, 44_checksum_validator_and_value_decode.md, 60_exceptions.md). -/

namespace Sys2Proof.Machine

open Host

/-- The five bytes with byte `i` replaced (R16). -/
def setByte (d : Data) (i : Nat) (v : Byte) : Data := d.setIfInBounds i v

/-- `DataSetBit(i, k)`: the block's only memory write besides `Clear` (R151). -/
def dataSetBit (d : Data) (i k : Nat) : Data := setByte d i (byteOf d i ||| (1#8 <<< k))

/-- `Clear()`: five zero bytes and the cursor at (0, 7) (R150). -/
def clearAccumulator (b : Block) : Block :=
  { b with data := zeroData, bitIndex := 7, byteIndex := 0 }

/-- `CursorAdvance()` (R152). -/
def cursorAdvance (b : Block) : Block :=
  if b.bitIndex = 0 then { b with bitIndex := 7, byteIndex := b.byteIndex + 1 }
  else { b with bitIndex := b.bitIndex - 1 }

/-- The first line of `Accumulate(b)`: a `1` sets the bit under the cursor, a `0` writes nothing (R153). -/
def storeBit (bit : Bool) (b : Block) : Block :=
  if bit then { b with data := dataSetBit b.data b.byteIndex.toNat b.bitIndex.toNat } else b

/-- `Accumulate(b)` (R153). -/
def accumulate (bit : Bool) (b : Block) : Block := cursorAdvance (storeBit bit b)

/-- The common prefix of every EDGE, its state part: the timestamp is written whatever the form (R121). -/
def stampEdge (now : Micros) (b : Block) : Block := { b with lastEdgeTimestamp := now }

/-- `S.status <- s` (R17). -/
def setStatus (st : Status) (b : Block) : Block := { b with status := st }

/-- The block's three errors (R185, R186). -/
inductive ErrorKind where
  | wakeUpError
  | dataError
  | checksumMismatch
  deriving DecidableEq, Repr

/-- The result an error leaves (R186). -/
def errorResult : ErrorKind → Result
  | .wakeUpError => .wakeUpError
  | .dataError => .dataError
  | .checksumMismatch => .checksumMismatch

/-- `raise E`, the block's one form of exception: result and status are written, nothing is saved and
nothing else changes; there is no handler and no vector (R17, R190). There is no return operation
(R194): the way back is START.ACCEPT, through `armAttempt`. -/
def raiseError (e : ErrorKind) (b : Block) : Block :=
  { b with result := errorResult e, status := .invalid }

/-- The state part of START.ACCEPT (R111), which is also the recovery from every error (R194). -/
def armAttempt (now : Micros) (b : Block) : Block :=
  setStatus .wakingUp (stampEdge now (clearAccumulator b))

/-- The matching branch of `FrameEnd()` (R166). -/
def publishFrame (b : Block) : Block :=
  { b with
    humidity := decodeHumidity b.data
    temperature := decodeTemperature b.data
    result := .ok
    status := .done }

/-- `FrameEnd()` (R166). -/
def frameEnd (b : Block) : Block :=
  if checksumOk b.data then publishFrame b else raiseError .checksumMismatch b

/-- The common body of EDGE.BIT0 and EDGE.BIT1 after the prefix (R125, R126, R128). Outside the
precondition of R153 it stops (log entry 9). -/
def receiveBit (bit : Bool) (b : Block) : Outcome Block Fault Refusal :=
  if b.byteIndex ≤ 4 then
    let b' := accumulate bit b
    .next (if frameComplete b' then frameEnd b' else b')
  else .fault .cursorOutOfRange

/-- The wake-up action list of START.ACCEPT, in order (R113, R206). -/
def wakeUpActions (p : Params) : List Action :=
  [.driveLow, .delay p.tTriggerUs, .release, .delay p.tSettleUs]

/-- The end of an operation: the block it leaves, the value it returns and the actions it emits
(R16, R87, R206). -/
def complete (s : State) (b : Block) (out : Option Output) (acts : List Action) : State :=
  { s with block := b, output := out, actions := acts }

/-- An EDGE form: it applies when its symbol is the one `Classify` gives, and then runs the prefix of
R121 and its own effect (R122). In any other state the form is not selected (log entry 8). -/
def edgeForm (want : Symbol) (effect : Block → Outcome Block Fault Refusal) (now : Micros) (s : State) :
    Outcome State Fault Refusal :=
  if classify s.params s.block.status (elapsed now s.block) = want then
    match effect (stampEdge now s.block) with
    | .next b => .next (complete s b none [])
    | .fault f => .fault f
    | .refused r => .refused r
  else .refused .formNotSelected

/-- An accessor: a pure read of one field that returns it (R175). -/
def readField (v : Output) (s : State) : Outcome State Fault Refusal :=
  .next (complete s s.block (some v) [])

end Sys2Proof.Machine
end

