-- ==== Sys2Proof/Machine/Accessors.lean ====
section
/-! DEFINITION. The four accessors (45_accessors.md). Their `now` field is ignored (R175). -/

namespace Sys2Proof.Machine

open Host

/-- STATE (R176). -/
def execState (_now : Micros) (s : State) : Outcome State Fault Refusal :=
  readField (.status s.block.status) s

/-- LAST_RESULT (R177). -/
def execLastResult (_now : Micros) (s : State) : Outcome State Fault Refusal :=
  readField (.result s.block.result) s

/-- GET_TEMP (R178). -/
def execGetTemp (_now : Micros) (s : State) : Outcome State Fault Refusal :=
  readField (.temperature s.block.temperature) s

/-- GET_HUMIDITY (R179). -/
def execGetHumidity (_now : Micros) (s : State) : Outcome State Fault Refusal :=
  readField (.humidity s.block.humidity) s

end Sys2Proof.Machine
end

