-- ==== Sys2Proof/Machine/Edge.lean ====
section
/-! DEFINITION. The six forms of EDGE: the transition table of 41_edge_state_machine.md R122. -/

namespace Sys2Proof.Machine

open Host

/-- EDGE.ACK_OK (R123). -/
def execEdgeAckOk (now : Micros) (s : State) : Outcome State Fault Refusal :=
  edgeForm .ackOk (fun b => .next (setStatus .reading b)) now s

/-- EDGE.ACK_ERR (R124). -/
def execEdgeAckErr (now : Micros) (s : State) : Outcome State Fault Refusal :=
  edgeForm .ackBad (fun b => .next (raiseError .wakeUpError b)) now s

/-- EDGE.BIT0 (R125, R128). -/
def execEdgeBit0 (now : Micros) (s : State) : Outcome State Fault Refusal :=
  edgeForm .bit0 (receiveBit false) now s

/-- EDGE.BIT1 (R126, R128). -/
def execEdgeBit1 (now : Micros) (s : State) : Outcome State Fault Refusal :=
  edgeForm .bit1 (receiveBit true) now s

/-- EDGE.BIT_ERR (R127). -/
def execEdgeBitErr (now : Micros) (s : State) : Outcome State Fault Refusal :=
  edgeForm .bitBad (fun b => .next (raiseError .dataError b)) now s

/-- EDGE.IGNORE (R129): the prefix of R121 only. -/
def execEdgeIgnore (now : Micros) (s : State) : Outcome State Fault Refusal :=
  edgeForm .noSymbol (fun b => .next b) now s

end Sys2Proof.Machine
end

