-- ==== Sys2Proof/Machine/Start.lean ====
section
/-! DEFINITION. The two forms of START (40_start_and_blocking_read.md). -/

namespace Sys2Proof.Machine

open Host

/-- START.ACCEPT (R111): from a terminal status, clear the accumulator, record the clock, go to
WakingUp, emit the wake-up actions (R113) and return started = 1. -/
def execStartAccept (now : Micros) (s : State) : Outcome State Fault Refusal :=
  if isIdle s.block.status then
    .next (complete s (armAttempt now s.block) (some (.started true)) (wakeUpActions s.params))
  else .refused .formNotSelected

/-- START.REJECT (R112): during an attempt, write nothing, emit nothing and return started = 0; its
`now` is ignored. -/
def execStartReject (_now : Micros) (s : State) : Outcome State Fault Refusal :=
  if isIdle s.block.status then .refused .formNotSelected
  else .next (complete s s.block (some (.started false)) [])

end Sys2Proof.Machine
end

