-- ==== Sys2Proof/Syntax.lean ====
section
/-! DEFINITION. The operation forms: one constructor per row of spec/opcode_table.json (30_encoding.md R88). -/

namespace Sys2Proof

/-- The twelve operation forms of R88. Each carries the `now` field of its event word; the four
accessors ignore it (R85). -/
inductive Instr where
  /-- START.ACCEPT (R111) -/
  | startAccept (now : Micros)
  /-- START.REJECT (R112) -/
  | startReject (now : Micros)
  /-- EDGE.ACK_OK (R123) -/
  | edgeAckOk (now : Micros)
  /-- EDGE.ACK_ERR (R124) -/
  | edgeAckErr (now : Micros)
  /-- EDGE.BIT0 (R125) -/
  | edgeBit0 (now : Micros)
  /-- EDGE.BIT1 (R126) -/
  | edgeBit1 (now : Micros)
  /-- EDGE.BIT_ERR (R127) -/
  | edgeBitErr (now : Micros)
  /-- EDGE.IGNORE (R129) -/
  | edgeIgnore (now : Micros)
  /-- STATE (R176) -/
  | state (now : Micros)
  /-- LAST_RESULT (R177) -/
  | lastResult (now : Micros)
  /-- GET_TEMP (R178) -/
  | getTemp (now : Micros)
  /-- GET_HUMIDITY (R179) -/
  | getHumidity (now : Micros)
  deriving DecidableEq, Repr

end Sys2Proof
end

