-- ==== Sys2Proof/Machine/Dispatch.lean ====
section
/-! DEFINITION. One arm per operation form, each a call of its meaning (30_encoding.md R88). -/

namespace Sys2Proof.Machine

open Host

def exec (i : Instr) (s : State) : Host.Outcome State Fault Refusal :=
  match i with
  | .startAccept now => Sys2Proof.Machine.execStartAccept now s
  | .startReject now => Sys2Proof.Machine.execStartReject now s
  | .edgeAckOk now => Sys2Proof.Machine.execEdgeAckOk now s
  | .edgeAckErr now => Sys2Proof.Machine.execEdgeAckErr now s
  | .edgeBit0 now => Sys2Proof.Machine.execEdgeBit0 now s
  | .edgeBit1 now => Sys2Proof.Machine.execEdgeBit1 now s
  | .edgeBitErr now => Sys2Proof.Machine.execEdgeBitErr now s
  | .edgeIgnore now => Sys2Proof.Machine.execEdgeIgnore now s
  | .state now => Sys2Proof.Machine.execState now s
  | .lastResult now => Sys2Proof.Machine.execLastResult now s
  | .getTemp now => Sys2Proof.Machine.execGetTemp now s
  | .getHumidity now => Sys2Proof.Machine.execGetHumidity now s

end Sys2Proof.Machine
end

