-- ==== Sys2Proof/WellFormed.lean ====
section
/-! DEFINITION. Well-formed operation forms: the canonical event words of 30_encoding.md R85. -/

namespace Sys2Proof

/-- R85: "In the canonical form of an event word for STATE, LAST_RESULT, GET_TEMP and GET_HUMIDITY
the `now` field is zero". START and EDGE accept every `now` (R86). A form that is not canonical still
runs, to the same effect. -/
def Instr.wf : Instr → Bool
  | .startAccept _ => true
  | .startReject _ => true
  | .edgeAckOk _ => true
  | .edgeAckErr _ => true
  | .edgeBit0 _ => true
  | .edgeBit1 _ => true
  | .edgeBitErr _ => true
  | .edgeIgnore _ => true
  | .state now => now == 0
  | .lastResult now => now == 0
  | .getTemp now => now == 0
  | .getHumidity now => now == 0

/-- The canonical form of R85: the same operation with an ignored `now` set to zero. -/
def Instr.canonical : Instr → Instr
  | .startAccept now => .startAccept now
  | .startReject now => .startReject now
  | .edgeAckOk now => .edgeAckOk now
  | .edgeAckErr now => .edgeAckErr now
  | .edgeBit0 now => .edgeBit0 now
  | .edgeBit1 now => .edgeBit1 now
  | .edgeBitErr now => .edgeBitErr now
  | .edgeIgnore now => .edgeIgnore now
  | .state _ => .state 0
  | .lastResult _ => .lastResult 0
  | .getTemp _ => .getTemp 0
  | .getHumidity _ => .getHumidity 0

end Sys2Proof
end

