-- ==== Sys2Proof/Decode.lean ====
section
/-! DEFINITION. Decoding an event word in a state, and encoding an operation form (30_encoding.md R84,
R85, R88, R89). The word names the operation; the state and `elapsed` name the form, so the rows of
one operation share their words and the decoder takes the state (log entry 13). -/

namespace Sys2Proof

open Machine

/-- Why a word is no operation. -/
inductive DecodeReject where
  /-- operation code 6 or 7 (R93) -/
  | reservedOperation (code : BitVec 3)
  deriving DecidableEq, Repr

/-- The form of a START (R89, R110). -/
def startFormOf (st : Status) (now : Micros) : Instr :=
  if isIdle st then .startAccept now else .startReject now

/-- The EDGE form a symbol selects (R82, R140: "map one to one onto the six EDGE forms"). -/
def edgeFormOf (sym : Symbol) (now : Micros) : Instr :=
  match sym with
  | .ackOk => .edgeAckOk now
  | .ackBad => .edgeAckErr now
  | .bit0 => .edgeBit0 now
  | .bit1 => .edgeBit1 now
  | .bitBad => .edgeBitErr now
  | .noSymbol => .edgeIgnore now

/-- The form of an operation with the given clock sample in a state (R89). -/
def formOf (s : State) (op : Operation) (now : Micros) : Instr :=
  match op with
  | .caller .start => startFormOf s.block.status now
  | .edge => edgeFormOf (classify s.params s.block.status (elapsed now s.block)) now
  | .caller .state => .state now
  | .caller .lastResult => .lastResult now
  | .caller .getTemp => .getTemp now
  | .caller .getHumidity => .getHumidity now

/-- Decoding an event word (R89): total, reserved codes rejected by name. -/
def decode (s : State) (w : EventWord) : Except DecodeReject Instr :=
  match operationOf (opField w) with
  | some op => .ok (formOf s op (nowField w))
  | none => .error (.reservedOperation (opField w))

/-- The operation a form belongs to (R88). -/
def operationOfInstr : Instr → Operation
  | .startAccept _ => .caller .start
  | .startReject _ => .caller .start
  | .edgeAckOk _ => .edge
  | .edgeAckErr _ => .edge
  | .edgeBit0 _ => .edge
  | .edgeBit1 _ => .edge
  | .edgeBitErr _ => .edge
  | .edgeIgnore _ => .edge
  | .state _ => .caller .state
  | .lastResult _ => .caller .lastResult
  | .getTemp _ => .caller .getTemp
  | .getHumidity _ => .caller .getHumidity

/-- The `now` field a form carries (R84). -/
def nowOfInstr : Instr → Micros
  | .startAccept now => now
  | .startReject now => now
  | .edgeAckOk now => now
  | .edgeAckErr now => now
  | .edgeBit0 now => now
  | .edgeBit1 now => now
  | .edgeBitErr now => now
  | .edgeIgnore now => now
  | .state now => now
  | .lastResult now => now
  | .getTemp now => now
  | .getHumidity now => now

/-- The event word of a form: `{op, now}` (R84, R85). -/
def encode (i : Instr) : EventWord := mkWord (opCode (operationOfInstr i)) (nowOfInstr i)

/-- The event word a number is, if it has at most 35 bits (R84). -/
def wordOfNat (w : Nat) : Option EventWord := if w < 2 ^ 35 then some (BitVec.ofNat 35 w) else none

/-- What the decoder reads from a table row's word in the state right after reset (log entry 13); bits
of the word above `nbits` are zero. -/
def decodeTableWord (nbits w : Nat) : Option Instr :=
  match wordOfNat (w % 2 ^ nbits) with
  | some e => (decode State.reset e).toOption
  | none => none

end Sys2Proof
end

