-- ==== Sys2Proof/Machine/Fetch.lean ====
section
/-! DEFINITION. What the next step runs: the agents' pending events, the order of two operations
presented together, the caller's BLOCKING_READ, and reset (20_memory.md R61 to R63, 60_exceptions.md
R193, 40_start_and_blocking_read.md R114, 70_reset_and_hazards.md R215). -/

namespace Sys2Proof.Machine

open Host

/-- The part an operation plays for the caller (R114). -/
inductive Role where
  /-- issued on its own -/
  | direct
  /-- the START of a BLOCKING_READ -/
  | blockingStart
  /-- a STATE of its poll loop -/
  | poll
  /-- its closing LAST_RESULT -/
  | collect
  deriving DecidableEq, Repr

/-- What the next step does. The state given with it has the event taken from its inputs. -/
inductive Fetched where
  | stop (r : Refusal)
  | reset (s : State)
  | issue (role : Role) (w : EventWord) (s : State)
  deriving DecidableEq, Repr

/-- The word of an operation (R84, R85). -/
def wordOf (op : Operation) (now : Micros) : EventWord := mkWord (opCode op) now

/-- The canonical word of an accessor has `now` zero (R85); START samples the clock. -/
def callerWord (op : CallerOp) (now : Micros) : EventWord :=
  match op with
  | .start => wordOf (.caller .start) now
  | .state => wordOf (.caller .state) 0
  | .lastResult => wordOf (.caller .lastResult) 0
  | .getTemp => wordOf (.caller .getTemp) 0
  | .getHumidity => wordOf (.caller .getHumidity) 0

/-- Whether a word's operation is the caller's to issue (R85, column issuer). -/
def isCallerWord (w : EventWord) : Bool :=
  match operationOf (opField w) with
  | some (.caller _) => true
  | some .edge => false
  | none => false

/-- The next operation of a BLOCKING_READ in progress (R114); `idle` says why there is none. -/
def callerTurn (idle : Refusal) (s : State) : Fetched :=
  match s.caller with
  | .idle => .stop idle
  | .polling => .issue .poll (callerWord .state 0) s
  | .collecting => .issue .collect (callerWord .lastResult 0) s

/-- An event word presented on its own. During a BLOCKING_READ the caller issues nothing else (R114). -/
def presentWord (w : EventWord) (s : State) : Fetched :=
  if isCallerWord w && s.caller != .idle then .stop .callerBusy else .issue .direct w s

/-- A BLOCKING_READ presented on its own: its START (R114). -/
def presentBlockingRead (now : Micros) (s : State) : Fetched :=
  if s.caller = .idle then .issue .blockingStart (callerWord .start now) s else .stop .callerBusy

/-- A caller's request presented on its own. -/
def presentRequest (req : CallerRequest) (now : Micros) (s : State) : Fetched :=
  match req with
  | .op op => presentWord (callerWord op now) s
  | .blockingRead => presentBlockingRead now s
  | .turn => callerTurn .callerIdle s

/-- A caller's request as an event of its own. -/
def requestEvent (req : CallerRequest) (now : Micros) : Event :=
  match req with
  | .op op => .word (callerWord op now)
  | .blockingRead => .blockingRead now
  | .turn => .callerTurn

/-- Why the caller cannot make a request in its phase, if it cannot (log entry 10). -/
def requestRefusal (req : CallerRequest) (phase : CallerPhase) : Option Refusal :=
  match req with
  | .op _ => if phase = .idle then none else some .callerBusy
  | .blockingRead => if phase = .idle then none else some .callerBusy
  | .turn => if phase = .idle then some .callerIdle else none

/-- Whether the first operation of a request is START (R114). -/
def requestStarts (req : CallerRequest) : Bool :=
  match req with
  | .op .start => true
  | .op .state => false
  | .op .lastResult => false
  | .op .getTemp => false
  | .op .getHumidity => false
  | .blockingRead => true
  | .turn => false

/-- A free choice of order, drawn with the counter (log entry 1). -/
def drawOrder (s : State) : Bool × State :=
  (Config.freeEdgeFirst s.draws, { s with draws := s.draws + 1 })

/-- Whether the edge goes before the caller's request (R193). A START in a terminal status is ordered by
SIMUL_ORDER. "In a non-terminal status START is START.REJECT and the order does not matter": there it
goes first, so that the edge cannot end the attempt under it (log entry 16). An accessor is ordered
"either way" (log entry 15). -/
def edgeGoesFirst (req : CallerRequest) (s : State) : Bool × State :=
  if requestStarts req then
    if isIdle s.block.status then
      match s.params.simulOrder with
      | .edgeFirst => (true, s)
      | .startFirst => (false, s)
      | .either => drawOrder s
    else (false, s)
  else drawOrder s

/-- A caller's request and an edge presented together: the first of them runs now and the other is the
next event; both carry the same clock sample (R193). -/
def arbitrate (req : CallerRequest) (now : Micros) (s : State) : Fetched :=
  match requestRefusal req s.caller with
  | some r => .stop r
  | none =>
    let o := edgeGoesFirst req s
    if o.1 then .issue .direct (wordOf .edge now) { o.2 with inputs := requestEvent req now :: o.2.inputs }
    else presentRequest req now { o.2 with inputs := .word (wordOf .edge now) :: o.2.inputs }

/-- The next event. With none pending, the caller's poll loop goes on by itself (R115); an idle
machine has no step (log entry 6). -/
def fetch (s : State) : Fetched :=
  match s.inputs with
  | [] => callerTurn .noEvent s
  | .callerTurn :: rest => callerTurn .callerIdle { s with inputs := rest }
  | .reset :: rest => .reset { s with inputs := rest }
  | .word w :: rest => presentWord w { s with inputs := rest }
  | .together req now :: rest => arbitrate req now { s with inputs := rest }
  | .blockingRead now :: rest => presentBlockingRead now { s with inputs := rest }

/-- What the caller does with the value its operation returned (R114): `started` is discarded, a
terminal status ends the poll loop, and the result is what BLOCKING_READ returns. -/
def settleCaller (role : Role) (s : State) : State :=
  match role with
  | .direct => s
  | .blockingStart => { s with caller := .polling, blockingReturn := none }
  | .poll =>
    match s.output with
    | some (.status st) => if isIdle st then { s with caller := .collecting } else s
    | _ => s
  | .collect =>
    match s.output with
    | some (.result r) => { s with caller := .idle, blockingReturn := some r }
    | _ => s

/-- `settleCaller` after an operation that completed. -/
def finish (role : Role) (o : Outcome State Fault Refusal) : Outcome State Fault Refusal :=
  match o with
  | .next t => .next (settleCaller role t)
  | .fault f => .fault f
  | .refused r => .refused r

/-- RESET (R215, R216): the block goes to its reset state whatever it was; no line action is emitted. -/
def applyReset (s : State) : State := complete s (Block.reset s.params) none []

/-- Decode errors as refusals (log entry 7). -/
def rejectWord (e : DecodeReject) : Outcome State Fault Refusal :=
  match e with
  | .reservedOperation code => .refused (.reservedOperation code)

/-- The machine with a word put where the next step takes its event: in front of the pending inputs,
the caller free to issue it if it is the caller's (log entry 5). A number that is no event word leaves
nothing to run. -/
def placeWord (s : State) (nbits w : Nat) : State :=
  match wordOfNat (w % 2 ^ nbits) with
  | some e =>
    { s with
      inputs := .word e :: s.inputs
      caller := if isCallerWord e then .idle else s.caller }
  | none => { s with inputs := [], caller := .idle }

end Sys2Proof.Machine
end

