-- ==== Sys2Proof/Machine/Step.lean ====
section
/-! DEFINITION. One step of the machine: one whole operation of one agent (00_scope.md R13, R14). -/

namespace Sys2Proof.Machine

open Host

/-- One step: take the next event, and run the operation form its word selects in this state. -/
def step (s : State) : Outcome State Fault Refusal :=
  match fetch s with
  | .stop r => .refused r
  | .reset s' => .next (applyReset s')
  | .issue role w s' =>
    match decode s' w with
    | .error e => rejectWord e
    | .ok i => finish role (exec i s')

/-- The state whose very next step runs the event word `w` (log entry 5). -/
def State.withFetchWord (s : State) (nbits w : Nat) : State := placeWord s nbits w

end Sys2Proof.Machine
end

