-- ==== Sys2Proof/Machine/Trace.lean ====
section
/-! DEFINITION. Executions: the trace notation of 30_encoding.md R96 and runs of the step. -/

namespace Sys2Proof.Machine

open Host

/-- One line of a trace (R96); `edgeAfter d` is `EDGE +d`. -/
inductive TraceLine where
  | start (now : Micros)
  | edgeAt (now : Micros)
  | edgeAfter (d : Micros)
  | state
  | lastResult
  | getTemp
  | getHumidity
  | blockingRead (now : Micros)
  | reset
  deriving DecidableEq, Repr

/-- The events of a trace. `prev` is the clock sample of the START or EDGE before it, from which
`EDGE +d` counts, modulo 2^32 (R96). -/
def expandTrace (prev : Micros) : List TraceLine → List Event
  | [] => []
  | .start now :: rest => .word (callerWord .start now) :: expandTrace now rest
  | .edgeAt now :: rest => .word (wordOf .edge now) :: expandTrace now rest
  | .edgeAfter d :: rest => .word (wordOf .edge (prev + d)) :: expandTrace (prev + d) rest
  | .state :: rest => .word (callerWord .state 0) :: expandTrace prev rest
  | .lastResult :: rest => .word (callerWord .lastResult 0) :: expandTrace prev rest
  | .getTemp :: rest => .word (callerWord .getTemp 0) :: expandTrace prev rest
  | .getHumidity :: rest => .word (callerWord .getHumidity 0) :: expandTrace prev rest
  | .blockingRead now :: rest => .blockingRead now :: expandTrace now rest
  | .reset :: rest => .reset :: expandTrace prev rest

/-- `n` steps, stopping at the first that is no next state. -/
def runSteps : Nat → State → Outcome State Fault Refusal
  | 0, s => .next s
  | n + 1, s =>
    match step s with
    | .next t => runSteps n t
    | .fault f => .fault f
    | .refused r => .refused r

end Sys2Proof.Machine
end

