-- ==== Sys2Proof/Safety.lean ====
section
/-! DEFINITION. What counts as a safe state, when a form is selected, and the relations the claims
speak of (10_state.md section 7, 30_encoding.md R88, 60_exceptions.md R203). -/

namespace Sys2Proof.Machine

open Host

/-- The cursor invariant (R36). `0 <= bit_index <= 7` holds by its width. -/
def cursorInv (b : Block) : Prop :=
  b.byteIndex.toNat ≤ 5 ∧
  (b.status = .wakingUp → b.byteIndex = 0 ∧ b.bitIndex = 7 ∧ b.data = zeroData) ∧
  (b.status = .reading → b.byteIndex.toNat ≤ 4) ∧
  (b.byteIndex = 5 → b.bitIndex = 7 ∧ (b.status = .done ∨ b.status = .invalid))

/-- The data invariant (R37): in Reading every bit not yet received is 0. -/
def dataInv (b : Block) : Prop :=
  b.status = .reading → ∀ k < frameBits, position b ≤ k → frameBit b.data k = false

/-- The result invariant (R38), with R24 and R32: Done holds the decode of a good frame, Ok never
stands with Invalid, and before the first result the values are the reset parameters. -/
def resultInv (p : Params) (b : Block) : Prop :=
  (b.status = .done →
    b.result = .ok ∧ b.byteIndex = 5 ∧ checksumOk b.data = true ∧
      b.temperature = decodeTemperature b.data ∧ b.humidity = decodeHumidity b.data) ∧
  (b.result = .ok → b.status ≠ .invalid) ∧
  (b.result = .none → b.temperature = p.tempReset ∧ b.humidity = p.humReset)

/-- A safe state: the parameters keep the ranges of R11, the block keeps R36 to R38, and a caller about
to collect a result has seen a terminal status (R114). -/
def SafeState (s : State) : Prop :=
  s.params.wf = true ∧ cursorInv s.block ∧ dataInv s.block ∧ resultInv s.params s.block ∧
  (s.caller = .collecting → isIdle s.block.status = true)

/-- While a BLOCKING_READ is in progress, a terminal status means that an attempt has completed (R115). -/
def blockingInv (s : State) : Prop :=
  s.caller ≠ .idle → isIdle s.block.status = true → s.block.result ≠ .none

/-- The column "selected by" of R88, with the windows of R141 and R142 written out. -/
def selects (s : State) : Instr → Prop
  | .startAccept _ => s.block.status = .invalid ∨ s.block.status = .done
  | .startReject _ => s.block.status = .wakingUp ∨ s.block.status = .reading
  | .edgeAckOk now =>
    s.block.status = .wakingUp ∧ s.params.ackMin ≤ now - s.block.lastEdgeTimestamp ∧
      now - s.block.lastEdgeTimestamp ≤ s.params.ackMax
  | .edgeAckErr now =>
    s.block.status = .wakingUp ∧ (now - s.block.lastEdgeTimestamp < s.params.ackMin ∨
      s.params.ackMax < now - s.block.lastEdgeTimestamp)
  | .edgeBit0 now =>
    s.block.status = .reading ∧ s.params.bitMin ≤ now - s.block.lastEdgeTimestamp ∧
      now - s.block.lastEdgeTimestamp ≤ s.params.bitThreshold
  | .edgeBit1 now =>
    s.block.status = .reading ∧ s.params.bitThreshold < now - s.block.lastEdgeTimestamp ∧
      now - s.block.lastEdgeTimestamp ≤ s.params.bitMax
  | .edgeBitErr now =>
    s.block.status = .reading ∧ (now - s.block.lastEdgeTimestamp < s.params.bitMin ∨
      s.params.bitMax < now - s.block.lastEdgeTimestamp)
  | .edgeIgnore _ => s.block.status = .done ∨ s.block.status = .invalid
  | .state _ => True
  | .lastResult _ => True
  | .getTemp _ => True
  | .getHumidity _ => True

/-- The byte contents after the 40th bit, which is bit 0 of byte 4 (R51, R153). -/
def lastBitStored (bit : Bool) (d : Data) : Data :=
  #v[d[0], d[1], d[2], d[3], if bit then d[4] ||| 1#8 else d[4]]

/-- The form and the window of a data bit (R125, R126). -/
def bitFormAndWindow (s : State) (now : Micros) (bit : Bool) (i : Instr) : Prop :=
  (bit = false ∧ i = .edgeBit0 now ∧ s.params.bitMin ≤ now - s.block.lastEdgeTimestamp ∧
    now - s.block.lastEdgeTimestamp ≤ s.params.bitThreshold) ∨
  (bit = true ∧ i = .edgeBit1 now ∧ s.params.bitThreshold < now - s.block.lastEdgeTimestamp ∧
    now - s.block.lastEdgeTimestamp ≤ s.params.bitMax)

/-- What an accessor returns of a block (R176 to R179); START is none. -/
def accessorValue (op : CallerOp) (b : Block) : Option Output :=
  match op with
  | .start => none
  | .state => some (.status b.status)
  | .lastResult => some (.result b.result)
  | .getTemp => some (.temperature b.temperature)
  | .getHumidity => some (.humidity b.humidity)

/-- The same machine with an edge, and nothing else, presented next. -/
def edgeAlone (now : Micros) (s : State) : State := { s with inputs := [.word (wordOf .edge now)] }

/-- Two outcomes of the same kind, with equal reasons or related next states. -/
def outcomeRel (R : State → State → Prop) : Outcome State Fault Refusal → Outcome State Fault Refusal → Prop
  | .next s, .next t => R s t
  | .fault f, .fault g => f = g
  | .refused r, .refused q => r = q
  | _, _ => False

/-- An outcome with its next state changed by `f`. -/
def mapNext (f : State → State) : Outcome State Fault Refusal → Outcome State Fault Refusal
  | .next s => .next (f s)
  | .fault r => .fault r
  | .refused r => .refused r

/-- Two states that differ at most in the hidden fields of R34, and in those only in a terminal
status (R35). -/
def sameButHidden (s t : State) : Prop :=
  t = { s with block := t.block } ∧
  t.block.status = s.block.status ∧ t.block.result = s.block.result ∧
  t.block.temperature = s.block.temperature ∧ t.block.humidity = s.block.humidity ∧
  (isIdle s.block.status = false → t.block = s.block)

/-- The same machine on a clock that reads `c` more (R203). -/
def shiftClock (c : Micros) (s : State) : State :=
  { s with block := { s.block with lastEdgeTimestamp := s.block.lastEdgeTimestamp + c } }

/-- The same operation with its clock sample taken on a clock that reads `c` more; an accessor takes
no sample (R203). -/
def shiftInstr (c : Micros) : Instr → Instr
  | .startAccept now => .startAccept (now + c)
  | .startReject now => .startReject (now + c)
  | .edgeAckOk now => .edgeAckOk (now + c)
  | .edgeAckErr now => .edgeAckErr (now + c)
  | .edgeBit0 now => .edgeBit0 (now + c)
  | .edgeBit1 now => .edgeBit1 (now + c)
  | .edgeBitErr now => .edgeBitErr (now + c)
  | .edgeIgnore now => .edgeIgnore (now + c)
  | .state now => .state now
  | .lastResult now => .lastResult now
  | .getTemp now => .getTemp now
  | .getHumidity now => .getHumidity now

end Sys2Proof.Machine
end

