-- ==== Sys2Proof/Certificates/Slice0/Obligations.lean ====
section
/-! DEFINITION. The statements about the model. Each docstring names the rule of spec/ it formalises, or
says that it is the spec's own inference or the model's choice. -/

open Sys2Proof Sys2Proof.Machine Host

/-! ### Encoding and decoding -/

/-- Words written out from the table of 30_encoding.md R85 decode to the operation they stand for
(95_test_vectors.md V-L), here in the reset state, where START is accepted and an edge is ignored. -/
def Obligations.DecodeWrittenOutWords : Prop :=
  decode State.reset 0x0000003E8 = .ok (.startAccept 1000) ∧
  decode State.reset 0x10000047E = .ok (.edgeIgnore 1150) ∧
  decode State.reset 0x200000000 = .ok (.state 0) ∧
  decode State.reset 0x2DEADBEEF = .ok (.state 0xDEADBEEF) ∧
  decode State.reset 0x300000000 = .ok (.lastResult 0) ∧
  decode State.reset 0x400000000 = .ok (.getTemp 0) ∧
  decode State.reset 0x500000000 = .ok (.getHumidity 0) ∧
  decode State.reset 0x600000000 = .error (.reservedOperation 6) ∧
  decode State.reset 0x7FFFFFFFF = .error (.reservedOperation 7)

/-- Decoding the word of any form, in any state that selects the form by the column of R88, gives the
form back with its operand: well-formed and non-canonical forms alike. -/
def Obligations.DecodeOfEncodeIsTheForm : Prop :=
  ∀ (s : State) (i : Instr), s.params.wf = true → selects s i → decode s (encode i) = .ok i

/-- Every word that decodes is the encoding of what it decodes to: no bit of a word is dropped. -/
def Obligations.EncodeOfDecodeIsTheWord : Prop :=
  ∀ (s : State) (w : EventWord) (i : Instr), decode s w = .ok i → encode i = w

/-- R89's own inference: decoding is total on words with a code below 6 and selects exactly one form. -/
def Obligations.DecodeSelectsExactlyOneForm : Prop :=
  ∀ (s : State) (w : EventWord), s.params.wf = true → w.toNat / 2 ^ 32 < 6 →
    ∃ i, decode s w = .ok i ∧ selects s i ∧ ∀ j, selects s j → encode j = w → j = i

/-- R93: codes 6 and 7 name no operation and the model refuses the word, whatever the state (log entry 7). -/
def Obligations.ReservedCodesAreRefused : Prop :=
  ∀ (s : State) (w : EventWord) (rest : List Event), 6 ≤ w.toNat / 2 ^ 32 → s.inputs = .word w :: rest →
    ∃ code : BitVec 3, code.toNat = w.toNat / 2 ^ 32 ∧ step s = .refused (.reservedOperation code)

/-- A word at the head of the inputs runs as the form it decodes to. The step adds only that the event
is taken; a caller's word needs the caller free (log entry 10). -/
def Obligations.StepRunsDecodedWord : Prop :=
  ∀ (s : State) (w : EventWord) (rest : List Event) (i : Instr),
    s.inputs = .word w :: rest → (s.caller = .idle ∨ w.toNat / 2 ^ 32 = 1) → decode s w = .ok i →
    step s = exec i { s with inputs := rest }

/-- R85 and R175: the `now` of an accessor's word is ignored. -/
def Obligations.NonCanonicalWordsRunAlike : Prop :=
  ∀ (i : Instr) (s : State), i.canonical.wf = true ∧ exec i s = exec i.canonical s

/-! ### START -/

/-- R111. -/
def Obligations.StartAcceptArmsTheAttempt : Prop :=
  ∀ (s : State) (now : Micros), s.block.status = .invalid ∨ s.block.status = .done →
    exec (.startAccept now) s = .next { s with
      block := { status := .wakingUp, result := s.block.result, data := #v[0, 0, 0, 0, 0], bitIndex := 7,
                 byteIndex := 0, lastEdgeTimestamp := now, temperature := s.block.temperature,
                 humidity := s.block.humidity }
      output := some (.started true)
      actions := [.driveLow, .delay s.params.tTriggerUs, .release, .delay s.params.tSettleUs] }

/-- R112: no field is written, no action is emitted, `now` is ignored. -/
def Obligations.StartRejectWritesNothing : Prop :=
  ∀ (s : State) (now : Micros), s.block.status = .wakingUp ∨ s.block.status = .reading →
    exec (.startReject now) s = .next { s with output := some (.started false), actions := [] }

/-! ### EDGE -/

/-- R123. -/
def Obligations.EdgeAckOkStartsReading : Prop :=
  ∀ (s : State) (now : Micros), s.block.status = .wakingUp →
    s.params.ackMin ≤ now - s.block.lastEdgeTimestamp → now - s.block.lastEdgeTimestamp ≤ s.params.ackMax →
    exec (.edgeAckOk now) s = .next { s with
      block := { s.block with status := .reading, lastEdgeTimestamp := now }, output := none, actions := [] }

/-- R124. -/
def Obligations.EdgeAckErrRaisesWakeUpError : Prop :=
  ∀ (s : State) (now : Micros), s.block.status = .wakingUp →
    (now - s.block.lastEdgeTimestamp < s.params.ackMin ∨ s.params.ackMax < now - s.block.lastEdgeTimestamp) →
    exec (.edgeAckErr now) s = .next { s with
      block := { s.block with status := .invalid, result := .wakeUpError, lastEdgeTimestamp := now }
      output := none, actions := [] }

/-- R125 before the 40th bit: no byte is written, the cursor goes to the next position, status stays
Reading. -/
def Obligations.EdgeBit0MovesTheCursor : Prop :=
  ∀ (s : State) (now : Micros), s.params.wf = true → s.block.status = .reading → position s.block < 39 →
    s.params.bitMin ≤ now - s.block.lastEdgeTimestamp →
    now - s.block.lastEdgeTimestamp ≤ s.params.bitThreshold →
    ∃ t, exec (.edgeBit0 now) s = .next t ∧ position t.block = position s.block + 1 ∧
      t = { s with
        block := { s.block with bitIndex := t.block.bitIndex, byteIndex := t.block.byteIndex,
                                lastEdgeTimestamp := now }
        output := none, actions := [] }

/-- R126 before the 40th bit: the bit under the cursor is set and no other bit of any byte changes; the
cursor goes to the next position, status stays Reading. -/
def Obligations.EdgeBit1SetsTheBitAndMovesTheCursor : Prop :=
  ∀ (s : State) (now : Micros), s.params.wf = true → s.block.status = .reading → position s.block < 39 →
    s.params.bitThreshold < now - s.block.lastEdgeTimestamp →
    now - s.block.lastEdgeTimestamp ≤ s.params.bitMax →
    ∃ t, exec (.edgeBit1 now) s = .next t ∧ position t.block = position s.block + 1 ∧
      (∀ k < 40, frameBit t.block.data k = (frameBit s.block.data k || k == position s.block)) ∧
      t = { s with
        block := { s.block with data := t.block.data, bitIndex := t.block.bitIndex,
                                byteIndex := t.block.byteIndex, lastEdgeTimestamp := now }
        output := none, actions := [] }

/-- R125, R126 at the 40th bit, R166, R128 with a matching checksum, for EDGE.BIT0 and EDGE.BIT1: values, Ok and Done, in the step
of the 40th bit; the frame and the cursor (5, 7) stay. -/
def Obligations.FortiethBitWithMatchPublishesTheFrame : Prop :=
  ∀ (s : State) (now : Micros) (bit : Bool) (i : Instr), s.params.wf = true →
    s.block.status = .reading → position s.block = 39 → bitFormAndWindow s now bit i →
    let d := lastBitStored bit s.block.data
    d[0] + d[1] + d[2] + d[3] = d[4] →
    exec i s = .next { s with
      block := { status := .done, result := .ok, data := d, bitIndex := 7, byteIndex := 5,
                 lastEdgeTimestamp := now, humidity := d[0] ++ d[1],
                 temperature := if d[2].getLsbD 7 then -((d[2] &&& 0x7F#8) ++ d[3]) else d[2] ++ d[3] }
      output := none, actions := [] }

/-- R166, R189, R128 without a match, for EDGE.BIT0 and EDGE.BIT1: ChecksumMismatch and Invalid, the
values keep their contents. -/
def Obligations.FortiethBitWithoutMatchRaisesChecksumMismatch : Prop :=
  ∀ (s : State) (now : Micros) (bit : Bool) (i : Instr), s.params.wf = true →
    s.block.status = .reading → position s.block = 39 → bitFormAndWindow s now bit i →
    let d := lastBitStored bit s.block.data
    d[0] + d[1] + d[2] + d[3] ≠ d[4] →
    exec i s = .next { s with
      block := { status := .invalid, result := .checksumMismatch, data := d, bitIndex := 7, byteIndex := 5,
                 lastEdgeTimestamp := now, humidity := s.block.humidity,
                 temperature := s.block.temperature }
      output := none, actions := [] }

/-- R127, at every bit position. -/
def Obligations.EdgeBitErrRaisesDataError : Prop :=
  ∀ (s : State) (now : Micros), s.block.status = .reading →
    (now - s.block.lastEdgeTimestamp < s.params.bitMin ∨ s.params.bitMax < now - s.block.lastEdgeTimestamp) →
    exec (.edgeBitErr now) s = .next { s with
      block := { s.block with status := .invalid, result := .dataError, lastEdgeTimestamp := now }
      output := none, actions := [] }

/-- R129: in a terminal status only the timestamp is written. -/
def Obligations.EdgeIgnoreWritesOnlyTheTimestamp : Prop :=
  ∀ (s : State) (now : Micros), s.block.status = .done ∨ s.block.status = .invalid →
    exec (.edgeIgnore now) s = .next { s with
      block := { s.block with lastEdgeTimestamp := now }, output := none, actions := [] }

/-- R121: every form with the EDGE code writes the timestamp, whatever it then does, and `elapsed` is
the difference modulo 2^32. -/
def Obligations.EveryEdgeStampsItsClock : Prop :=
  (∀ (now : Micros) (b : Block),
    (elapsed now b).toNat = (now.toNat + 2 ^ 32 - b.lastEdgeTimestamp.toNat) % 2 ^ 32) ∧
  ∀ (i : Instr) (s t : State), (encode i).toNat / 2 ^ 32 = 1 → exec i s = .next t →
    t.block.lastEdgeTimestamp.toNat = (encode i).toNat % 2 ^ 32

/-- R143's own inference: the symbols partition the values of `elapsed`, in each status. -/
def Obligations.SymbolsPartitionTheIntervals : Prop :=
  ∀ (p : Params) (e : Micros), p.wf = true →
    (classify p .wakingUp e = .ackOk ↔ p.ackMin.toNat ≤ e.toNat ∧ e.toNat ≤ p.ackMax.toNat) ∧
    (classify p .wakingUp e = .ackBad ↔ e.toNat < p.ackMin.toNat ∨ p.ackMax.toNat < e.toNat) ∧
    (classify p .reading e = .bit0 ↔ p.bitMin.toNat ≤ e.toNat ∧ e.toNat ≤ p.bitThreshold.toNat) ∧
    (classify p .reading e = .bit1 ↔ p.bitThreshold.toNat < e.toNat ∧ e.toNat ≤ p.bitMax.toNat) ∧
    (classify p .reading e = .bitBad ↔ e.toNat < p.bitMin.toNat ∨ p.bitMax.toNat < e.toNat) ∧
    classify p .done e = .noSymbol ∧ classify p .invalid e = .noSymbol

/-! ### The accumulator -/

/-- R151: `DataSetBit` sets its bit and changes no other bit of any byte. -/
def Obligations.DataSetBitSetsOneBit : Prop :=
  ∀ (d : Data) (i k : Nat), i ≤ 4 → k ≤ 7 → ∀ j ≤ 4, ∀ m ≤ 7,
    (byteOf (dataSetBit d i k) j).getLsbD m = ((byteOf d j).getLsbD m || (j == i && m == k))

/-- R152: at bit 0 the cursor goes to bit 7 of the next byte, otherwise to the next lower bit, and nothing
else is written; so it visits the forty positions of R31 in order, and after the last it rests at (5, 7). -/
def Obligations.CursorAdvanceVisitsPositionsInOrder : Prop :=
  ∀ b : Block, b.byteIndex ≤ 4 →
    ((cursorAdvance b).bitIndex.toNat, (cursorAdvance b).byteIndex.toNat) =
      (if b.bitIndex.toNat = 0 then (7, b.byteIndex.toNat + 1)
       else (b.bitIndex.toNat - 1, b.byteIndex.toNat)) ∧
    position (cursorAdvance b) = position b + 1 ∧
    (position b = 39 → (cursorAdvance b).byteIndex = 5 ∧ (cursorAdvance b).bitIndex = 7) ∧
    cursorAdvance b = { b with bitIndex := (cursorAdvance b).bitIndex, byteIndex := (cursorAdvance b).byteIndex }

/-- R153: `Accumulate` stores the bit at frame position `n`, no other bit changes, and then the cursor
advances; the frame is complete exactly after position 39. -/
def Obligations.AccumulateStoresTheFrameBit : Prop :=
  ∀ (bit : Bool) (b : Block), b.byteIndex ≤ 4 →
    (∀ k < 40, frameBit (accumulate bit b).data k =
      if k = position b then bit || frameBit b.data k else frameBit b.data k) ∧
    position (accumulate bit b) = position b + 1 ∧
    (frameComplete (accumulate bit b) = true ↔ position b = 39) ∧
    accumulate bit b = { b with data := (accumulate bit b).data, bitIndex := (accumulate bit b).bitIndex,
                                byteIndex := (accumulate bit b).byteIndex }

/-- R154's own inference: eight bits from the start of a zero byte spell its number, most significant
bit first, and the cursor stands at the next byte. -/
def Obligations.EightBitsSpellAByte : Prop :=
  ∀ (b : Block) (b7 b6 b5 b4 b3 b2 b1 b0 : Bool), b.byteIndex ≤ 4 → b.bitIndex = 7 →
    byteOf b.data b.byteIndex.toNat = 0 →
    let b' := [b7, b6, b5, b4, b3, b2, b1, b0].foldl (fun c bit => accumulate bit c) b
    (byteOf b'.data b.byteIndex.toNat).toNat =
      b7.toNat * 128 + b6.toNat * 64 + b5.toNat * 32 + b4.toNat * 16 + b3.toNat * 8 + b2.toNat * 4 +
        b1.toNat * 2 + b0.toNat ∧
    b'.byteIndex = b.byteIndex + 1 ∧ b'.bitIndex = 7 ∧
    ∀ j ≤ 4, j ≠ b.byteIndex.toNat → byteOf b'.data j = byteOf b.data j

/-! ### Checksum and values -/

/-- The sum of R161 is modulo 256 and the fifth byte is not part of it; the compare of R162; and R162's own
inference that exactly one fifth byte passes for every payload. -/
def Obligations.ChecksumIsTheSumModulo256 : Prop :=
  ∀ d : Data,
    (sum8 d).toNat = ((byteOf d 0).toNat + (byteOf d 1).toNat + (byteOf d 2).toNat + (byteOf d 3).toNat) % 256 ∧
    (checksumOk d = true ↔
      (byteOf d 4).toNat =
        ((byteOf d 0).toNat + (byteOf d 1).toNat + (byteOf d 2).toNat + (byteOf d 3).toNat) % 256) ∧
    ∀ v : Byte, (checksumOk (setByte d 4 v) = true ↔ v = sum8 d)

/-- R163. -/
def Obligations.HumidityIsHighByteFirst : Prop :=
  ∀ d : Data, (decodeHumidity d).toNat = (byteOf d 0).toNat * 256 + (byteOf d 1).toNat

/-- R164, with R165 and R32: the magnitude, negated when the sign bit is set; negative zero is zero;
-32768 is never produced. -/
def Obligations.TemperatureIsSignAndMagnitude : Prop :=
  ∀ d : Data,
    (decodeTemperature d).toInt =
      (if 128 ≤ (byteOf d 2).toNat then (-1 : Int) else 1) *
        (((byteOf d 2).toNat % 128 * 256 + (byteOf d 3).toNat : Nat) : Int) ∧
    decodeTemperature d ≠ 0x8000

/-! ### Accessors -/

/-- R176 to R179: each accessor returns its field and changes nothing of the machine but what it hands
out. -/
def Obligations.AccessorsReturnTheirField : Prop :=
  ∀ (s : State) (now : Micros),
    exec (.state now) s = .next { s with output := some (.status s.block.status), actions := [] } ∧
    exec (.lastResult now) s = .next { s with output := some (.result s.block.result), actions := [] } ∧
    exec (.getTemp now) s = .next { s with output := some (.temperature s.block.temperature), actions := [] } ∧
    exec (.getHumidity now) s = .next { s with output := some (.humidity s.block.humidity), actions := [] }

/-- R56's inference on idempotency: an accessor issued again at once returns the same value and leaves
the same state. -/
def Obligations.AccessorsRepeat : Prop :=
  ∀ (i : Instr) (s t : State), 2 ≤ (encode i).toNat / 2 ^ 32 → exec i s = .next t →
    t.block = s.block ∧ exec i t = .next t

/-- The tables of R23 and R25 (the spec's own assignments, D4 and D5), and what they give: the idle statuses
are those whose code has bit 1 set, and codes tell values apart. -/
def Obligations.StatusAndResultCodes : Prop :=
  statusCode .wakingUp = 0b00 ∧ statusCode .reading = 0b01 ∧ statusCode .done = 0b10 ∧
  statusCode .invalid = 0b11 ∧
  resultCode .none = 0b000 ∧ resultCode .ok = 0b001 ∧ resultCode .checksumMismatch = 0b010 ∧
  resultCode .wakeUpError = 0b011 ∧ resultCode .dataError = 0b100 ∧
  (∀ st, isIdle st = (statusCode st).getLsbD 1) ∧
  (∀ st st', statusCode st = statusCode st' → st = st') ∧
  (∀ r r', resultCode r = resultCode r' → r = r') ∧
  ∀ r, (resultCode r).toNat ≤ 4

/-! ### Whole-machine rules over all forms -/

/-- The column of R88 says exactly when a form runs: a selected form completes from every safe state, and a
form that is not selected is refused by name (the refusal is the model's choice, log entry 8). -/
def Obligations.SelectedFormsComplete : Prop :=
  ∀ (i : Instr) (s : State), SafeState s →
    (selects s i → ∃ t, exec i s = .next t) ∧ (¬ selects s i → exec i s = .refused .formNotSelected)

/-- R131's own inference: the only transitions of `status`, by form. -/
def Obligations.StatusMovesOnlyAlongTheGraph : Prop :=
  ∀ (i : Instr) (s t : State), exec i s = .next t →
    match i with
    | .startAccept _ => isIdle s.block.status = true ∧ t.block.status = .wakingUp
    | .edgeAckOk _ => s.block.status = .wakingUp ∧ t.block.status = .reading
    | .edgeAckErr _ => s.block.status = .wakingUp ∧ t.block.status = .invalid
    | .edgeBit0 _ | .edgeBit1 _ => s.block.status = .reading ∧ t.block.status ≠ .wakingUp
    | .edgeBitErr _ => s.block.status = .reading ∧ t.block.status = .invalid
    | .startReject _ => isIdle s.block.status = false ∧ t.block.status = s.block.status
    | .edgeIgnore _ => isIdle s.block.status = true ∧ t.block.status = s.block.status
    | .state _ | .lastResult _ | .getTemp _ | .getHumidity _ => t.block.status = s.block.status

/-- R24 and R65: `result` changes only in a form with the EDGE code that ends an attempt, and no form
ever writes None. -/
def Obligations.ResultIsWrittenOnlyWhenAnAttemptEnds : Prop :=
  ∀ (i : Instr) (s t : State), exec i s = .next t →
    t.block.result = s.block.result ∨
    ((encode i).toNat / 2 ^ 32 = 1 ∧ t.block.result ≠ .none ∧
      isIdle s.block.status = false ∧ isIdle t.block.status = true)

/-- R32, R33, R180: the two values are written together, only by the step that ends an attempt with
success, and are then the decode of the frame. -/
def Obligations.ValuesChangeOnlyWithASuccessfulFrame : Prop :=
  ∀ (i : Instr) (s t : State), exec i s = .next t →
    (t.block.temperature = s.block.temperature ∧ t.block.humidity = s.block.humidity) ∨
    (s.block.status = .reading ∧ t.block.status = .done ∧ t.block.result = .ok ∧
      checksumOk t.block.data = true ∧
      t.block.temperature = decodeTemperature t.block.data ∧ t.block.humidity = decodeHumidity t.block.data)

/-- R190, R191: what a form that enters Invalid leaves. EDGE.ACK_ERR raises WakeUpError and EDGE.BIT_ERR
DataError, and both keep the bytes and the cursor; only a data bit at the 40th position raises
ChecksumMismatch, with that bit stored and the cursor at (5, 7). All three keep the values, leave the step's
clock in the timestamp and hand out nothing. -/
def Obligations.ErrorEntryKeepsTheRest : Prop :=
  ∀ (i : Instr) (s t : State), exec i s = .next t → s.block.status ≠ .invalid → t.block.status = .invalid →
    let kept := t.block.data = s.block.data ∧ t.block.bitIndex = s.block.bitIndex ∧
      t.block.byteIndex = s.block.byteIndex
    ((i = .edgeAckErr (nowOfInstr i) ∧ t.block.result = .wakeUpError ∧ kept) ∨
      (i = .edgeBitErr (nowOfInstr i) ∧ t.block.result = .dataError ∧ kept) ∨
      ∃ bit : Bool, i = (if bit then .edgeBit1 (nowOfInstr i) else .edgeBit0 (nowOfInstr i)) ∧
        t.block.result = .checksumMismatch ∧ position s.block = 39 ∧
        t.block.data = lastBitStored bit s.block.data ∧ t.block.bitIndex = 7 ∧ t.block.byteIndex = 5) ∧
    t.block.temperature = s.block.temperature ∧ t.block.humidity = s.block.humidity ∧
    t.block.lastEdgeTimestamp = nowOfInstr i ∧
    t = { s with block := t.block, output := none, actions := [] }

/-- R131, R221: during an attempt no caller operation changes anything of the block, so a stalled attempt
can be ended only by an edge or a reset. -/
def Obligations.CallerCannotTouchAnAttempt : Prop :=
  ∀ (i : Instr) (s t : State), (encode i).toNat / 2 ^ 32 ≠ 1 → isIdle s.block.status = false →
    exec i s = .next t → t.block = s.block ∧ t.actions = []

/-- R206: the wake-up actions of an accepted START are the only actions any form emits. -/
def Obligations.OnlyAnAcceptedStartTouchesTheLine : Prop :=
  ∀ (i : Instr) (s t : State), exec i s = .next t → t.actions ≠ [] →
    t.output = some (.started true) ∧
    t.actions = [.driveLow, .delay s.params.tTriggerUs, .release, .delay s.params.tSettleUs]

/-- R69: the parameters cannot be written at run time. -/
def Obligations.ParametersNeverChange : Prop :=
  ∀ s t : State, step s = .next t → t.params = s.params

/-- R203, R121: only differences of clock samples are used, so a machine on a clock that reads `c` more
does the same, with its timestamp that much more. -/
def Obligations.OnlyClockDifferencesMatter : Prop :=
  ∀ (c : Micros) (i : Instr) (s : State),
    exec (shiftInstr c i) (shiftClock c s) = mapNext (shiftClock c) (exec i s)

/-- R35's own inference: in a terminal status the hidden fields cannot be observed. Two states that
differ in nothing else step to the same kind of outcome, hand out the same, and differ again at most in
the hidden fields of a terminal status. -/
def Obligations.HiddenFieldsAreUnobservableWhenIdle : Prop :=
  ∀ s t : State, sameButHidden s t → outcomeRel sameButHidden (step s) (step t)

/-! ### Reset and invariants -/

/-- R216, the values the spec gives: Invalid, None, the two reset parameters; START is accepted. -/
def Obligations.ResetStateIsIdle : Prop :=
  State.reset.block.status = .invalid ∧ State.reset.block.result = .none ∧
  State.reset.block.temperature = State.reset.params.tempReset ∧
  State.reset.block.humidity = State.reset.params.humReset ∧
  ∀ now, ∃ t, exec (.startAccept now) State.reset = .next t ∧ t.block.status = .wakingUp ∧
    t.block.result = .none

/-- R215, R216: a reset may strike in any state, also in an attempt, and gives the reset state of R216;
it emits no action. That the caller and the pending events stay is the model's choice (log entry 12). -/
def Obligations.ResetStrikesInAnyState : Prop :=
  ∀ (s : State) (rest : List Event), s.inputs = .reset :: rest →
    ∃ t, step s = .next t ∧ t.block.status = .invalid ∧ t.block.result = .none ∧
      t.block.temperature = s.params.tempReset ∧ t.block.humidity = s.params.humReset ∧
      t = { s with block := t.block, inputs := rest, output := none, actions := [] }

/-- The reset state is safe; for the hidden fields this is the model's choice of reset value (log entry 4). -/
def Obligations.InvariantHoldsAtReset : Prop := SafeState State.reset

/-- R36, R37, R38 (the spec's own inferences): every step keeps the invariant. R36 speaks of the time from
the first START.ACCEPT on; that the step of a RESET keeps the cursor clauses too rests on the model's reset
values of the hidden fields (log entry 4). The clause on a collecting caller is the model's (log entry 10). -/
def Obligations.EveryStepKeepsTheInvariant : Prop :=
  ∀ s t : State, SafeState s → step s = .next t → SafeState t

/-- R36, R151: from a safe state no step would write outside the accumulator. The model says so by a fault of
its own, cursorOutOfRange, its only one (log entry 9), which no step from a safe state raises. -/
def Obligations.NoStepLeavesTheAccumulator : Prop :=
  ∀ s : State, SafeState s → ∀ f, step s ≠ .fault f

/-! ### Runs -/

/-- R63's own inference: in a terminal status, edges and accessors, however many and in whatever order,
change nothing a caller can observe, and all of them run. -/
def Obligations.TerminalStatusIsStableWithoutStart : Prop :=
  ∀ (n : Nat) (s : State), SafeState s → s.caller = .idle → isIdle s.block.status = true → n ≤ s.inputs.length →
    (∀ e ∈ s.inputs, ∃ op now, e = .word (wordOf op now) ∧ op ≠ .caller .start) →
    ∃ t, runSteps n s = .next t ∧ t.block.status = s.block.status ∧ t.block.result = s.block.result ∧
      t.block.temperature = s.block.temperature ∧ t.block.humidity = s.block.humidity ∧
      t.block.data = s.block.data ∧ (s.block.status = .done → t.block.result = .ok)

/-- R132's own inference: 41 edges end an attempt, whatever their intervals, and no fewer end it with
success. -/
def Obligations.AttemptEndsWithin41Edges : Prop :=
  ∀ (s : State) (nows : List Micros) (rest : List Event), SafeState s → s.block.status = .wakingUp →
    s.inputs = nows.map (fun now => .word (wordOf .edge now)) ++ rest →
    (nows.length = 41 → ∃ t, runSteps 41 s = .next t ∧ isIdle t.block.status = true) ∧
    (nows.length ≤ 40 → ∃ t, runSteps nows.length s = .next t ∧ t.block.status ≠ .done)

/-- The whole decoder (R83, R81, R162 to R166): after an accepted START, an acknowledgement and forty data
pulses with in-window intervals leave exactly the bits the threshold reads; the attempt ends Done and Ok
with the values of that frame when its fifth byte is the sum of the first four modulo 256, and otherwise
Invalid and ChecksumMismatch with the old values. -/
def Obligations.FortyPulsesDecodeToTheFrame : Prop :=
  ∀ (s : State) (ack : Micros) (pulses : List Micros), SafeState s → s.block.status = .wakingUp →
    s.inputs = expandTrace s.block.lastEdgeTimestamp ((ack :: pulses).map .edgeAfter) →
    pulses.length = 40 → s.params.ackMin ≤ ack → ack ≤ s.params.ackMax →
    (∀ p ∈ pulses, s.params.bitMin ≤ p ∧ p ≤ s.params.bitMax) →
    ∃ t, runSteps 41 s = .next t ∧
      (∀ k < 40, frameBit t.block.data k = decide (s.params.bitThreshold < pulses.getD k 0)) ∧
      let d := fun i => (byteOf t.block.data i).toNat
      if (d 0 + d 1 + d 2 + d 3) % 256 = d 4 then
        t.block.status = .done ∧ t.block.result = .ok ∧ t.block.humidity.toNat = d 0 * 256 + d 1 ∧
        t.block.temperature.toInt = (if 128 ≤ d 2 then (-1 : Int) else 1) * ((d 2 % 128 * 256 + d 3 : Nat) : Int)
      else
        t.block.status = .invalid ∧ t.block.result = .checksumMismatch ∧
        t.block.humidity = s.block.humidity ∧ t.block.temperature = s.block.temperature

/-! ### Agents together -/

/-- R193: a START and an EDGE in one instant. From a terminal status, EDGE first leaves a fresh attempt; START
first lets the edge be judged with `elapsed` 0, which raises WakeUpError when ACK_MIN > 0 and is an
acknowledgement when ACK_MIN is 0; with EITHER one of the two happens, whichever the free value says (log
entry 1). In a non-terminal status START is START.REJECT, whatever SIMUL_ORDER is and also when the edge ends
the attempt, and the block is left as the EDGE alone leaves it; that the START's step comes first there is
the model's (log entry 16). -/
def Obligations.StartAndEdgeTogether : Prop :=
  ∀ (s : State) (now : Micros) (rest : List Event), s.inputs = .together (.op .start) now :: rest →
    s.caller = .idle →
    (isIdle s.block.status = true →
      ∃ t, runSteps 2 s = .next t ∧ t.inputs = rest ∧ t.block.lastEdgeTimestamp = now ∧
        t.block.data = #v[0, 0, 0, 0, 0] ∧ t.block.bitIndex = 7 ∧ t.block.byteIndex = 0 ∧
        let edgeFirst := t.block.status = .wakingUp ∧ t.block.result = s.block.result
        let startFirst :=
          if 0 < s.params.ackMin then t.block.status = .invalid ∧ t.block.result = .wakeUpError
          else t.block.status = .reading ∧ t.block.result = s.block.result
        match s.params.simulOrder with
        | .edgeFirst => edgeFirst
        | .startFirst => startFirst
        | .either => edgeFirst ∨ startFirst) ∧
    (SafeState s → isIdle s.block.status = false →
      ∃ t u e, step s = .next t ∧ t.output = some (.started false) ∧ t.actions = [] ∧ t.block = s.block ∧
        step t = .next u ∧ step (edgeAlone now s) = .next e ∧ u.block = e.block ∧ u.inputs = rest)

/-- R193: an accessor and an EDGE in one instant run in one order or the other: the accessor returns its
field before or after the edge, and the block is left as the EDGE alone leaves it. The order is drawn
whatever SIMUL_ORDER is (log entry 15). -/
def Obligations.AccessorAndEdgeTogether : Prop :=
  ∀ (s : State) (op : CallerOp) (now : Micros) (rest : List Event), SafeState s →
    s.inputs = .together (.op op) now :: rest → s.caller = .idle → op ≠ .start →
    ∃ t u e, step s = .next t ∧ step t = .next u ∧ u.inputs = rest ∧ u.caller = .idle ∧
      step (edgeAlone now s) = .next e ∧ u.block = e.block ∧
      ((t.output = accessorValue op s.block ∧ t.block = s.block) ∨
        (t.block = e.block ∧ u.output = accessorValue op e.block))

/-- R193 for the START of a BLOCKING_READ: with an EDGE in the same instant the two steps are those of a START
with that EDGE, and the caller goes to its poll loop (log entry 10). -/
def Obligations.BlockingReadAndEdgeTogether : Prop :=
  ∀ (s : State) (now : Micros) (rest : List Event), SafeState s →
    s.inputs = .together .blockingRead now :: rest → s.caller = .idle →
    ∃ t, runSteps 2 { s with inputs := .together (.op .start) now :: rest } = .next t ∧
      runSteps 2 s = .next { t with caller := .polling, blockingReturn := none }

/-- R193 for the operations inside a BLOCKING_READ: the STATE of the poll loop, or the closing LAST_RESULT,
with an EDGE in the same instant runs before or after it, and the caller goes on by the value it was given
(log entries 10 and 15). -/
def Obligations.BlockingReadTurnAndEdgeTogether : Prop :=
  ∀ (s : State) (now : Micros) (rest : List Event), SafeState s →
    s.inputs = .together .turn now :: rest → s.caller ≠ .idle →
    ∃ t u e, step s = .next t ∧ step t = .next u ∧ u.inputs = rest ∧
      step (edgeAlone now s) = .next e ∧ u.block = e.block ∧
      let value := accessorValue (if s.caller = .polling then .state else .lastResult)
      ∃ seen : Block,
        ((seen = s.block ∧ t.block = s.block ∧ t.output = value seen) ∨
          (seen = e.block ∧ t.block = e.block ∧ u.output = value seen)) ∧
        (s.caller = .polling →
          u.caller = (if isIdle seen.status then .collecting else .polling) ∧
          u.blockingReturn = s.blockingReturn) ∧
        (s.caller = .collecting → u.caller = .idle ∧ u.blockingReturn = some seen.result)

/-- R114: BLOCKING_READ begins with one START, accepted or not, whose return value is discarded; the value of
an earlier BLOCKING_READ is cleared (log entry 10). -/
def Obligations.BlockingReadBeginsWithStart : Prop :=
  ∀ (s : State) (now : Micros) (rest : List Event), s.inputs = .blockingRead now :: rest → s.caller = .idle →
    ∃ t, step s = .next t ∧ t.caller = .polling ∧ t.blockingReturn = none ∧ t.inputs = rest ∧
      exec (if isIdle s.block.status then .startAccept now else .startReject now) { s with inputs := rest } =
        .next { t with caller := .idle, blockingReturn := s.blockingReturn }

/-- R114, R115: each turn of the polling caller is a STATE; it stays in the loop until the status is
terminal; the turn after that is LAST_RESULT, whose value BLOCKING_READ returns. With no event pending
the loop goes on by itself. -/
def Obligations.BlockingReadPollsThenReturnsTheResult : Prop :=
  ∀ (s : State) (rest : List Event), (s.inputs = .callerTurn :: rest ∨ s.inputs = [] ∧ rest = []) →
    (s.caller = .polling →
      step s = .next { s with
        inputs := rest, output := some (.status s.block.status), actions := []
        caller := if isIdle s.block.status then .collecting else .polling }) ∧
    (s.caller = .collecting →
      step s = .next { s with
        inputs := rest, output := some (.result s.block.result), actions := []
        caller := .idle, blockingReturn := some s.block.result })

/-- R115 (c), the spec's own inference: with no reset in between, a BLOCKING_READ never returns None. -/
def Obligations.BlockingReadNeverReturnsNone : Prop :=
  ∀ s t : State, SafeState s → blockingInv s → (∀ rest, s.inputs ≠ .reset :: rest) → step s = .next t →
    blockingInv t ∧ (s.caller = .collecting → t.caller = .idle → ∃ r, t.blockingReturn = some r ∧ r ≠ .none)

/-- U14, R201: the model has one caller (log entry 10). During a BLOCKING_READ a word, a request with an edge,
or a BLOCKING_READ that a second caller would issue is refused as callerBusy, and an edge is not; with no
BLOCKING_READ in progress a turn of one, alone or with an edge, is refused as callerIdle. -/
def Obligations.OneCallerAtATime : Prop :=
  ∀ (s : State) (now : Micros) (rest : List Event),
    (s.caller ≠ .idle →
      (∀ w, s.inputs = .word w :: rest → w.toNat / 2 ^ 32 < 6 →
        (step s = .refused .callerBusy ↔ w.toNat / 2 ^ 32 ≠ 1)) ∧
      (∀ op, s.inputs = .together (.op op) now :: rest → step s = .refused .callerBusy) ∧
      (s.inputs = .together .blockingRead now :: rest → step s = .refused .callerBusy) ∧
      (s.inputs = .blockingRead now :: rest → step s = .refused .callerBusy)) ∧
    (s.caller = .idle →
      (s.inputs = .callerTurn :: rest → step s = .refused .callerIdle) ∧
      (s.inputs = .together .turn now :: rest → step s = .refused .callerIdle))

/-- R14, R212, R221: with nothing presented and no BLOCKING_READ in progress no agent has a step, and in no
other case does the model say so; it says it by the refusal noEvent (log entry 6). -/
def Obligations.NoEventNoStep : Prop :=
  ∀ s : State, step s = .refused .noEvent ↔ s.inputs = [] ∧ s.caller = .idle
end

