-- ==== Sys2Proof/Laws/Decode.lean ====
section
/-! SUPPORT. The fields of an event word, and what decoding gives (30_encoding.md R84, R85, R89). -/

namespace Sys2Proof.Machine

theorem toNat_mkWord (op : BitVec 3) (now : Micros) :
    (mkWord op now).toNat = op.toNat * 2 ^ 32 + now.toNat := by
  have h : (op ++ now).toNat = op.toNat <<< 32 ||| now.toNat := BitVec.toNat_append op now
  rw [← Nat.shiftLeft_add_eq_or_of_lt now.isLt, Nat.shiftLeft_eq] at h
  exact h

theorem toNat_opField (w : EventWord) : (opField w).toNat = w.toNat / 2 ^ 32 := by
  have := w.isLt
  simp only [opField, BitVec.extractLsb'_toNat, Nat.shiftRight_eq_div_pow]
  omega

theorem toNat_nowField (w : EventWord) : (nowField w).toNat = w.toNat % 2 ^ 32 := by
  simp [nowField]

@[simp] theorem opField_mkWord (op : BitVec 3) (now : Micros) : opField (mkWord op now) = op := by
  have := now.isLt
  apply BitVec.eq_of_toNat_eq
  rw [toNat_opField, toNat_mkWord]; omega

@[simp] theorem nowField_mkWord (op : BitVec 3) (now : Micros) : nowField (mkWord op now) = now := by
  have := now.isLt
  apply BitVec.eq_of_toNat_eq
  rw [toNat_nowField, toNat_mkWord]; omega

theorem mkWord_fields (w : EventWord) : mkWord (opField w) (nowField w) = w := by
  apply BitVec.eq_of_toNat_eq
  rw [toNat_mkWord, toNat_opField, toNat_nowField]; omega

@[simp] theorem operationOf_opCode (op : Operation) : operationOf (opCode op) = some op := by
  cases op with
  | edge => rfl
  | caller c => cases c <;> rfl

/-- A code that names an operation is that operation's code. -/
theorem opCode_of_operationOf {code : BitVec 3} {op : Operation} (h : operationOf code = some op) :
    opCode op = code := by
  revert h; revert op; revert code; decide

/-- Codes 6 and 7 and no others name no operation (R93). -/
theorem operationOf_eq_none_iff (code : BitVec 3) : operationOf code = none ↔ 6 ≤ code.toNat := by
  revert code; decide

@[simp] theorem opField_wordOf (op : Operation) (now : Micros) : opField (wordOf op now) = opCode op := by
  simp [wordOf]

@[simp] theorem nowField_wordOf (op : Operation) (now : Micros) : nowField (wordOf op now) = now := by
  simp [wordOf]

/-- The word of an operation decodes to the operation's form in the state. -/
theorem decode_wordOf (s : State) (op : Operation) (now : Micros) :
    decode s (wordOf op now) = .ok (formOf s op now) := by simp [decode]

/-- What an accepted word is: the word of an operation whose form is the instruction. -/
theorem decode_ok {s : State} {w : EventWord} {i : Instr} (h : decode s w = .ok i) :
    ∃ op, operationOf (opField w) = some op ∧ i = formOf s op (nowField w) ∧
      w = wordOf op (nowField w) := by
  unfold decode at h
  split at h
  · rename_i op hop
    cases h
    exact ⟨op, hop, rfl, by rw [wordOf, opCode_of_operationOf hop, mkWord_fields]⟩
  · cases h

@[simp] theorem isCallerWord_wordOf_edge (now : Micros) : isCallerWord (wordOf .edge now) = false := by
  simp [isCallerWord]

@[simp] theorem isCallerWord_wordOf_caller (op : CallerOp) (now : Micros) :
    isCallerWord (wordOf (.caller op) now) = true := by
  simp [isCallerWord]

@[simp] theorem operationOfInstr_formOf (s : State) (op : Operation) (now : Micros) :
    operationOfInstr (formOf s op now) = op := by
  cases op with
  | edge => simp only [formOf, edgeFormOf]; split <;> rfl
  | caller c => cases c <;> simp only [formOf, startFormOf] <;> first | rfl | (split <;> rfl)

@[simp] theorem nowOfInstr_formOf (s : State) (op : Operation) (now : Micros) :
    nowOfInstr (formOf s op now) = now := by
  cases op with
  | edge => simp only [formOf, edgeFormOf]; split <;> rfl
  | caller c => cases c <;> simp only [formOf, startFormOf] <;> first | rfl | (split <;> rfl)

end Sys2Proof.Machine
end

