-- ==== Sys2Proof/Laws/State.lean ====
section
/-! SUPPORT. What each update does to each field: one lemma per field per update (20_memory.md R55,
R65, 70_reset_and_hazards.md R217). -/

namespace Sys2Proof.Machine

variable (s : State) (b : Block) (now : Micros) (st : Status) (e : ErrorKind) (bit : Bool)
  (o : Option Output) (acts : List Action) (role : Role) (p : Params)

@[simp] theorem complete_params : (complete s b o acts).params = s.params := rfl
@[simp] theorem complete_block : (complete s b o acts).block = b := rfl
@[simp] theorem complete_inputs : (complete s b o acts).inputs = s.inputs := rfl
@[simp] theorem complete_output : (complete s b o acts).output = o := rfl
@[simp] theorem complete_actions : (complete s b o acts).actions = acts := rfl
@[simp] theorem complete_caller : (complete s b o acts).caller = s.caller := rfl
@[simp] theorem complete_blockingReturn : (complete s b o acts).blockingReturn = s.blockingReturn := rfl
@[simp] theorem complete_draws : (complete s b o acts).draws = s.draws := rfl

@[simp] theorem stampEdge_status : (stampEdge now b).status = b.status := rfl
@[simp] theorem stampEdge_result : (stampEdge now b).result = b.result := rfl
@[simp] theorem stampEdge_data : (stampEdge now b).data = b.data := rfl
@[simp] theorem stampEdge_bitIndex : (stampEdge now b).bitIndex = b.bitIndex := rfl
@[simp] theorem stampEdge_byteIndex : (stampEdge now b).byteIndex = b.byteIndex := rfl
@[simp] theorem stampEdge_lastEdgeTimestamp : (stampEdge now b).lastEdgeTimestamp = now := rfl
@[simp] theorem stampEdge_temperature : (stampEdge now b).temperature = b.temperature := rfl
@[simp] theorem stampEdge_humidity : (stampEdge now b).humidity = b.humidity := rfl

@[simp] theorem setStatus_status : (setStatus st b).status = st := rfl
@[simp] theorem setStatus_result : (setStatus st b).result = b.result := rfl
@[simp] theorem setStatus_data : (setStatus st b).data = b.data := rfl
@[simp] theorem setStatus_bitIndex : (setStatus st b).bitIndex = b.bitIndex := rfl
@[simp] theorem setStatus_byteIndex : (setStatus st b).byteIndex = b.byteIndex := rfl
@[simp] theorem setStatus_lastEdgeTimestamp : (setStatus st b).lastEdgeTimestamp = b.lastEdgeTimestamp := rfl
@[simp] theorem setStatus_temperature : (setStatus st b).temperature = b.temperature := rfl
@[simp] theorem setStatus_humidity : (setStatus st b).humidity = b.humidity := rfl

@[simp] theorem raiseError_status : (raiseError e b).status = .invalid := rfl
@[simp] theorem raiseError_result : (raiseError e b).result = errorResult e := rfl
@[simp] theorem raiseError_data : (raiseError e b).data = b.data := rfl
@[simp] theorem raiseError_bitIndex : (raiseError e b).bitIndex = b.bitIndex := rfl
@[simp] theorem raiseError_byteIndex : (raiseError e b).byteIndex = b.byteIndex := rfl
@[simp] theorem raiseError_lastEdgeTimestamp : (raiseError e b).lastEdgeTimestamp = b.lastEdgeTimestamp := rfl
@[simp] theorem raiseError_temperature : (raiseError e b).temperature = b.temperature := rfl
@[simp] theorem raiseError_humidity : (raiseError e b).humidity = b.humidity := rfl

@[simp] theorem clearAccumulator_status : (clearAccumulator b).status = b.status := rfl
@[simp] theorem clearAccumulator_result : (clearAccumulator b).result = b.result := rfl
@[simp] theorem clearAccumulator_data : (clearAccumulator b).data = zeroData := rfl
@[simp] theorem clearAccumulator_bitIndex : (clearAccumulator b).bitIndex = 7 := rfl
@[simp] theorem clearAccumulator_byteIndex : (clearAccumulator b).byteIndex = 0 := rfl
@[simp] theorem clearAccumulator_lastEdgeTimestamp :
    (clearAccumulator b).lastEdgeTimestamp = b.lastEdgeTimestamp := rfl
@[simp] theorem clearAccumulator_temperature : (clearAccumulator b).temperature = b.temperature := rfl
@[simp] theorem clearAccumulator_humidity : (clearAccumulator b).humidity = b.humidity := rfl

@[simp] theorem armAttempt_status : (armAttempt now b).status = .wakingUp := rfl
@[simp] theorem armAttempt_result : (armAttempt now b).result = b.result := rfl
@[simp] theorem armAttempt_data : (armAttempt now b).data = zeroData := rfl
@[simp] theorem armAttempt_bitIndex : (armAttempt now b).bitIndex = 7 := rfl
@[simp] theorem armAttempt_byteIndex : (armAttempt now b).byteIndex = 0 := rfl
@[simp] theorem armAttempt_lastEdgeTimestamp : (armAttempt now b).lastEdgeTimestamp = now := rfl
@[simp] theorem armAttempt_temperature : (armAttempt now b).temperature = b.temperature := rfl
@[simp] theorem armAttempt_humidity : (armAttempt now b).humidity = b.humidity := rfl

@[simp] theorem publishFrame_status : (publishFrame b).status = .done := rfl
@[simp] theorem publishFrame_result : (publishFrame b).result = .ok := rfl
@[simp] theorem publishFrame_data : (publishFrame b).data = b.data := rfl
@[simp] theorem publishFrame_bitIndex : (publishFrame b).bitIndex = b.bitIndex := rfl
@[simp] theorem publishFrame_byteIndex : (publishFrame b).byteIndex = b.byteIndex := rfl
@[simp] theorem publishFrame_lastEdgeTimestamp :
    (publishFrame b).lastEdgeTimestamp = b.lastEdgeTimestamp := rfl
@[simp] theorem publishFrame_temperature : (publishFrame b).temperature = decodeTemperature b.data := rfl
@[simp] theorem publishFrame_humidity : (publishFrame b).humidity = decodeHumidity b.data := rfl

@[simp] theorem storeBit_status : (storeBit bit b).status = b.status := by cases bit <;> rfl
@[simp] theorem storeBit_result : (storeBit bit b).result = b.result := by cases bit <;> rfl
@[simp] theorem storeBit_bitIndex : (storeBit bit b).bitIndex = b.bitIndex := by cases bit <;> rfl
@[simp] theorem storeBit_byteIndex : (storeBit bit b).byteIndex = b.byteIndex := by cases bit <;> rfl
@[simp] theorem storeBit_lastEdgeTimestamp :
    (storeBit bit b).lastEdgeTimestamp = b.lastEdgeTimestamp := by cases bit <;> rfl
@[simp] theorem storeBit_temperature : (storeBit bit b).temperature = b.temperature := by cases bit <;> rfl
@[simp] theorem storeBit_humidity : (storeBit bit b).humidity = b.humidity := by cases bit <;> rfl

@[simp] theorem cursorAdvance_status :
    (cursorAdvance b).status = b.status := by unfold cursorAdvance; split <;> rfl
@[simp] theorem cursorAdvance_result :
    (cursorAdvance b).result = b.result := by unfold cursorAdvance; split <;> rfl
@[simp] theorem cursorAdvance_data : (cursorAdvance b).data = b.data := by unfold cursorAdvance; split <;> rfl
@[simp] theorem cursorAdvance_lastEdgeTimestamp :
    (cursorAdvance b).lastEdgeTimestamp = b.lastEdgeTimestamp := by unfold cursorAdvance; split <;> rfl
@[simp] theorem cursorAdvance_temperature :
    (cursorAdvance b).temperature = b.temperature := by unfold cursorAdvance; split <;> rfl
@[simp] theorem cursorAdvance_humidity :
    (cursorAdvance b).humidity = b.humidity := by unfold cursorAdvance; split <;> rfl

theorem accumulate_data : (accumulate bit b).data = (storeBit bit b).data := by simp [accumulate]
@[simp] theorem accumulate_status : (accumulate bit b).status = b.status := by simp [accumulate]
@[simp] theorem accumulate_result : (accumulate bit b).result = b.result := by simp [accumulate]
@[simp] theorem accumulate_lastEdgeTimestamp :
    (accumulate bit b).lastEdgeTimestamp = b.lastEdgeTimestamp := by simp [accumulate]
@[simp] theorem accumulate_temperature :
    (accumulate bit b).temperature = b.temperature := by simp [accumulate]
@[simp] theorem accumulate_humidity : (accumulate bit b).humidity = b.humidity := by simp [accumulate]

@[simp] theorem frameEnd_data : (frameEnd b).data = b.data := by unfold frameEnd; split <;> rfl
@[simp] theorem frameEnd_bitIndex : (frameEnd b).bitIndex = b.bitIndex := by unfold frameEnd; split <;> rfl
@[simp] theorem frameEnd_byteIndex : (frameEnd b).byteIndex = b.byteIndex := by unfold frameEnd; split <;> rfl
@[simp] theorem frameEnd_lastEdgeTimestamp :
    (frameEnd b).lastEdgeTimestamp = b.lastEdgeTimestamp := by unfold frameEnd; split <;> rfl

@[simp] theorem reset_status : (Block.reset p).status = .invalid := rfl
@[simp] theorem reset_result : (Block.reset p).result = .none := rfl
@[simp] theorem reset_data : (Block.reset p).data = zeroData := rfl
@[simp] theorem reset_bitIndex : (Block.reset p).bitIndex = 7 := rfl
@[simp] theorem reset_byteIndex : (Block.reset p).byteIndex = 0 := rfl
@[simp] theorem reset_lastEdgeTimestamp : (Block.reset p).lastEdgeTimestamp = 0 := rfl
@[simp] theorem reset_temperature : (Block.reset p).temperature = p.tempReset := rfl
@[simp] theorem reset_humidity : (Block.reset p).humidity = p.humReset := rfl

@[simp] theorem applyReset_params : (applyReset s).params = s.params := rfl
@[simp] theorem applyReset_block : (applyReset s).block = Block.reset s.params := rfl
@[simp] theorem applyReset_inputs : (applyReset s).inputs = s.inputs := rfl
@[simp] theorem applyReset_output : (applyReset s).output = none := rfl
@[simp] theorem applyReset_actions : (applyReset s).actions = [] := rfl
@[simp] theorem applyReset_caller : (applyReset s).caller = s.caller := rfl
@[simp] theorem applyReset_blockingReturn : (applyReset s).blockingReturn = s.blockingReturn := rfl
@[simp] theorem applyReset_draws : (applyReset s).draws = s.draws := rfl

@[simp] theorem settleCaller_params :
    (settleCaller role s).params = s.params := by (unfold settleCaller; repeat' split) <;> rfl
@[simp] theorem settleCaller_block :
    (settleCaller role s).block = s.block := by (unfold settleCaller; repeat' split) <;> rfl
@[simp] theorem settleCaller_inputs :
    (settleCaller role s).inputs = s.inputs := by (unfold settleCaller; repeat' split) <;> rfl
@[simp] theorem settleCaller_output :
    (settleCaller role s).output = s.output := by (unfold settleCaller; repeat' split) <;> rfl
@[simp] theorem settleCaller_actions :
    (settleCaller role s).actions = s.actions := by (unfold settleCaller; repeat' split) <;> rfl
@[simp] theorem settleCaller_draws :
    (settleCaller role s).draws = s.draws := by (unfold settleCaller; repeat' split) <;> rfl

end Sys2Proof.Machine
end

