-- ==== Sys2Proof/Laws/Ops.lean ====
section
/-! SUPPORT. What each shared operation can do, once: the accumulator's reads after writes, the frame
end, and the EDGE forms (41_edge_state_machine.md, 43_sensor_data_accumulator.md,
44_checksum_validator_and_value_decode.md). -/

namespace Sys2Proof.Machine

open Host

/-! The accumulator. It is a vector, so equal contents are equal data: there is no form to keep. -/

theorem byteOf_eq_getElem (d : Data) {i : Nat} (h : i < frameBytes) : byteOf d i = d[i] := by
  simp [byteOf, h]

/-- Equal bytes are equal accumulators. -/
theorem data_ext {d e : Data} (h : ∀ i < frameBytes, byteOf d i = byteOf e i) : d = e := by
  ext1 i hi
  simpa [byteOf_eq_getElem, hi] using h i hi

/-- A read after a write: the byte written gives the value, every other byte is as before. -/
theorem byteOf_setByte (d : Data) {i : Nat} (h : i < frameBytes) (j : Nat) (v : Byte) :
    byteOf (setByte d i v) j = if j = i then v else byteOf d j := by
  by_cases hji : j = i
  · subst hji; simp [byteOf, setByte, h]
  · simp [byteOf, setByte, hji, Ne.symm hji]

@[simp] theorem byteOf_zero (i : Nat) : byteOf zeroData i = 0 := by
  by_cases h : i < 5
  · rw [byteOf_eq_getElem _ h]
    match i, h with
    | 0, _ | 1, _ | 2, _ | 3, _ | 4, _ => rfl
  · simp [byteOf, Nat.le_of_not_lt h]

@[simp] theorem frameBit_zero (k : Nat) : frameBit zeroData k = false := by
  simp [frameBit]

/-- Setting bit `k` of a byte sets that bit and no other (R151). -/
theorem getLsbD_or_bit (v : Byte) {k : Nat} (m : Nat) (h : k < 8) :
    (v ||| (1#8 <<< k)).getLsbD m = (v.getLsbD m || decide (m = k)) := by
  by_cases hm : m < 8
  · have : (1#8 <<< k).getLsbD m = decide (m = k) := by
      rw [BitVec.getLsbD_shiftLeft, BitVec.getLsbD_one, ← decide_not]
      simp only [← Bool.decide_and]
      congr 1
      simp only [eq_iff_iff]
      omega
    rw [BitVec.getLsbD_or, this]
  · have : m ≠ k := by omega
    have hge : 8 ≤ m := by omega
    rw [BitVec.getLsbD_of_ge _ m hge, BitVec.getLsbD_of_ge v m hge]
    simp [this]

/-- The cursor addresses frame bit `position b`. -/
theorem position_div (b : Block) : position b / 8 = b.byteIndex.toNat := by
  have := b.bitIndex.isLt; unfold position; omega

theorem position_mod (b : Block) : 7 - position b % 8 = b.bitIndex.toNat := by
  have := b.bitIndex.isLt; unfold position; omega

/-- The cursor advance in numbers (R152). -/
theorem cursorAdvance_cases (b : Block) :
    (b.bitIndex = 0 ∧ (cursorAdvance b).bitIndex = 7 ∧ (cursorAdvance b).byteIndex = b.byteIndex + 1) ∨
    (b.bitIndex ≠ 0 ∧ (cursorAdvance b).bitIndex = b.bitIndex - 1 ∧
      (cursorAdvance b).byteIndex = b.byteIndex) := by
  unfold cursorAdvance; split <;> simp_all

/-! The frame end and the data bits. -/

theorem frameEnd_cases (b : Block) :
    (checksumOk b.data = true ∧ frameEnd b = publishFrame b) ∨
    (checksumOk b.data = false ∧ frameEnd b = raiseError .checksumMismatch b) := by
  unfold frameEnd; split <;> simp_all

/-- All that receiving a bit can do when it goes on (R128): the frame is not complete, or it is and
matches, or it is and does not. -/
theorem receiveBit_next {bit : Bool} {b b' : Block} (h : receiveBit bit b = .next b') :
    b.byteIndex ≤ 4 ∧
    ((frameComplete (accumulate bit b) = false ∧ b' = accumulate bit b) ∨
     (frameComplete (accumulate bit b) = true ∧ b' = frameEnd (accumulate bit b))) := by
  unfold receiveBit at h
  split at h
  · rename_i hle
    simp only [Outcome.next.injEq] at h
    refine ⟨hle, ?_⟩
    split at h <;> simp_all
  · cases h

/-- Receiving a bit never refuses, and faults only outside the accumulator (R153). -/
theorem receiveBit_of_le (bit : Bool) {b : Block} (h : b.byteIndex ≤ 4) :
    receiveBit bit b =
      .next (if frameComplete (accumulate bit b) then frameEnd (accumulate bit b) else accumulate bit b) := by
  unfold receiveBit; rw [if_pos h]

/-! The EDGE forms. -/

/-- All that an EDGE form can do when it goes on. -/
theorem edgeForm_next {want : Symbol} {effect : Block → Outcome Block Fault Refusal} {now : Micros}
    {s t : State} (h : edgeForm want effect now s = .next t) :
    classify s.params s.block.status (elapsed now s.block) = want ∧
    ∃ b, effect (stampEdge now s.block) = .next b ∧ t = complete s b none [] := by
  unfold edgeForm at h
  split at h
  · rename_i hc
    refine ⟨hc, ?_⟩
    split at h
    · rename_i b hb
      exact ⟨b, hb, by simpa using h.symm⟩
    · cases h
    · cases h
  · cases h

/-- An EDGE form whose symbol is given runs its effect after the prefix of R121. -/
theorem edgeForm_of_next {want : Symbol} {effect : Block → Outcome Block Fault Refusal} {now : Micros}
    {s : State} {b : Block} (hc : classify s.params s.block.status (elapsed now s.block) = want)
    (hb : effect (stampEdge now s.block) = .next b) :
    edgeForm want effect now s = .next (complete s b none []) := by
  simp [edgeForm, hc, hb]

/-- An EDGE form whose symbol is not given is not selected. -/
theorem edgeForm_not_selected {want : Symbol} {effect : Block → Outcome Block Fault Refusal}
    {now : Micros} {s : State}
    (hc : classify s.params s.block.status (elapsed now s.block) ≠ want) :
    edgeForm want effect now s = .refused .formNotSelected := by
  simp [edgeForm, hc]

theorem receiveBit_ne_refused (bit : Bool) (b : Block) (r : Refusal) : receiveBit bit b ≠ .refused r := by
  unfold receiveBit; split <;> simp

/-- An EDGE form is refused only because it is not selected, when its effect refuses nothing. -/
theorem edgeForm_refused {want : Symbol} {effect : Block → Outcome Block Fault Refusal} {now : Micros}
    {s : State} {r : Refusal} (he : ∀ b q, effect b ≠ .refused q)
    (h : edgeForm want effect now s = .refused r) : r = .formNotSelected := by
  unfold edgeForm at h
  split at h
  · split at h
    · cases h
    · cases h
    · rename_i q hq; exact absurd hq (he _ _)
  · cases h; rfl

theorem params_wf_iff (p : Params) :
    p.wf = true ↔ p.ackMin ≤ p.ackMax ∧ p.bitMin ≤ p.bitThreshold ∧ p.bitThreshold < p.bitMax := by
  simp [Params.wf]

theorem classify_wakingUp (p : Params) (e : Micros) :
    classify p .wakingUp e = if p.ackMin ≤ e ∧ e ≤ p.ackMax then .ackOk else .ackBad := by
  simp [classify, inAckWindow]

theorem classify_reading (p : Params) (e : Micros) :
    classify p .reading e =
      if p.bitMin ≤ e ∧ e ≤ p.bitMax then (if p.bitThreshold < e then .bit1 else .bit0) else .bitBad := by
  by_cases h : p.bitMin ≤ e ∧ e ≤ p.bitMax <;> simp [classify, inBitWindow, h]

theorem classify_idle (p : Params) {st : Status} (e : Micros) (h : isIdle st = true) :
    classify p st e = .noSymbol := by
  cases st <;> simp_all [classify, isIdle]

/-- A symbol fixes the status it was read in (R140). -/
theorem classify_status {p : Params} {st : Status} {e : Micros} {sym : Symbol}
    (h : classify p st e = sym) :
    (sym = .ackOk ∨ sym = .ackBad → st = .wakingUp) ∧
    (sym = .bit0 ∨ sym = .bit1 ∨ sym = .bitBad → st = .reading) ∧
    (sym = .noSymbol → st = .done ∨ st = .invalid) := by
  subst h
  cases st <;> simp only [classify] <;> (repeat' split) <;> simp

end Sys2Proof.Machine
end

