-- ==== Sys2Proof/Laws/PerInstr.lean ====
section
/-! SUPPORT. Statements for all operation forms, one lemma per constructor (30_encoding.md R84, R85). -/

namespace Sys2Proof.Laws

open Machine

/-- The word a form encodes to carries the form's operation code and its clock sample, each whole. -/
def EncodeFields.Statement (i : Instr) : Prop :=
  opField (encode i) = opCode (operationOfInstr i) ∧ nowField (encode i) = nowOfInstr i

theorem EncodeFields.startAccept (now : Micros) : EncodeFields.Statement (.startAccept now) :=
  ⟨opField_mkWord _ _, nowField_mkWord _ _⟩

theorem EncodeFields.startReject (now : Micros) : EncodeFields.Statement (.startReject now) :=
  ⟨opField_mkWord _ _, nowField_mkWord _ _⟩

theorem EncodeFields.edgeAckOk (now : Micros) : EncodeFields.Statement (.edgeAckOk now) :=
  ⟨opField_mkWord _ _, nowField_mkWord _ _⟩

theorem EncodeFields.edgeAckErr (now : Micros) : EncodeFields.Statement (.edgeAckErr now) :=
  ⟨opField_mkWord _ _, nowField_mkWord _ _⟩

theorem EncodeFields.edgeBit0 (now : Micros) : EncodeFields.Statement (.edgeBit0 now) :=
  ⟨opField_mkWord _ _, nowField_mkWord _ _⟩

theorem EncodeFields.edgeBit1 (now : Micros) : EncodeFields.Statement (.edgeBit1 now) :=
  ⟨opField_mkWord _ _, nowField_mkWord _ _⟩

theorem EncodeFields.edgeBitErr (now : Micros) : EncodeFields.Statement (.edgeBitErr now) :=
  ⟨opField_mkWord _ _, nowField_mkWord _ _⟩

theorem EncodeFields.edgeIgnore (now : Micros) : EncodeFields.Statement (.edgeIgnore now) :=
  ⟨opField_mkWord _ _, nowField_mkWord _ _⟩

theorem EncodeFields.state (now : Micros) : EncodeFields.Statement (.state now) :=
  ⟨opField_mkWord _ _, nowField_mkWord _ _⟩

theorem EncodeFields.lastResult (now : Micros) : EncodeFields.Statement (.lastResult now) :=
  ⟨opField_mkWord _ _, nowField_mkWord _ _⟩

theorem EncodeFields.getTemp (now : Micros) : EncodeFields.Statement (.getTemp now) :=
  ⟨opField_mkWord _ _, nowField_mkWord _ _⟩

theorem EncodeFields.getHumidity (now : Micros) : EncodeFields.Statement (.getHumidity now) :=
  ⟨opField_mkWord _ _, nowField_mkWord _ _⟩

end Sys2Proof.Laws
end

