-- ==== Sys2Proof/Laws/Step.lean ====
section
/-! SUPPORT. What one step can do (20_memory.md R61): one inversion lemma for each operation form, for
the fetch and for the step. -/

namespace Sys2Proof.Machine

open Host

/-! The operation forms. -/

theorem execStartAccept_next {now : Micros} {s t : State} (h : execStartAccept now s = .next t) :
    isIdle s.block.status = true ∧
    t = complete s (armAttempt now s.block) (some (.started true)) (wakeUpActions s.params) := by
  unfold execStartAccept at h; split at h <;> simp_all

theorem execStartReject_next {now : Micros} {s t : State} (h : execStartReject now s = .next t) :
    isIdle s.block.status = false ∧ t = complete s s.block (some (.started false)) [] := by
  unfold execStartReject at h; split at h <;> simp_all

theorem execEdgeAckOk_next {now : Micros} {s t : State} (h : execEdgeAckOk now s = .next t) :
    classify s.params s.block.status (elapsed now s.block) = .ackOk ∧
    t = complete s (setStatus .reading (stampEdge now s.block)) none [] := by
  obtain ⟨hc, b, hb, rfl⟩ := edgeForm_next h
  cases hb; exact ⟨hc, rfl⟩

theorem execEdgeAckErr_next {now : Micros} {s t : State} (h : execEdgeAckErr now s = .next t) :
    classify s.params s.block.status (elapsed now s.block) = .ackBad ∧
    t = complete s (raiseError .wakeUpError (stampEdge now s.block)) none [] := by
  obtain ⟨hc, b, hb, rfl⟩ := edgeForm_next h
  cases hb; exact ⟨hc, rfl⟩

theorem execEdgeBit0_next {now : Micros} {s t : State} (h : execEdgeBit0 now s = .next t) :
    classify s.params s.block.status (elapsed now s.block) = .bit0 ∧
    ∃ b, receiveBit false (stampEdge now s.block) = .next b ∧ t = complete s b none [] :=
  edgeForm_next h

theorem execEdgeBit1_next {now : Micros} {s t : State} (h : execEdgeBit1 now s = .next t) :
    classify s.params s.block.status (elapsed now s.block) = .bit1 ∧
    ∃ b, receiveBit true (stampEdge now s.block) = .next b ∧ t = complete s b none [] :=
  edgeForm_next h

theorem execEdgeBitErr_next {now : Micros} {s t : State} (h : execEdgeBitErr now s = .next t) :
    classify s.params s.block.status (elapsed now s.block) = .bitBad ∧
    t = complete s (raiseError .dataError (stampEdge now s.block)) none [] := by
  obtain ⟨hc, b, hb, rfl⟩ := edgeForm_next h
  cases hb; exact ⟨hc, rfl⟩

theorem execEdgeIgnore_next {now : Micros} {s t : State} (h : execEdgeIgnore now s = .next t) :
    classify s.params s.block.status (elapsed now s.block) = .noSymbol ∧
    t = complete s (stampEdge now s.block) none [] := by
  obtain ⟨hc, b, hb, rfl⟩ := edgeForm_next h
  cases hb; exact ⟨hc, rfl⟩

theorem readField_next {v : Output} {s t : State} (h : readField v s = .next t) :
    t = complete s s.block (some v) [] := by
  simpa [readField] using h.symm

/-- No operation form touches anything outside the block, the output and the actions. -/
theorem exec_context {i : Instr} {s t : State} (h : exec i s = .next t) :
    t = { s with block := t.block, output := t.output, actions := t.actions } := by
  cases i with
  | startAccept now => obtain ⟨-, rfl⟩ := execStartAccept_next h; rfl
  | startReject now => obtain ⟨-, rfl⟩ := execStartReject_next (now := now) h; rfl
  | edgeAckOk now => obtain ⟨-, rfl⟩ := execEdgeAckOk_next h; rfl
  | edgeAckErr now => obtain ⟨-, rfl⟩ := execEdgeAckErr_next h; rfl
  | edgeBit0 now => obtain ⟨-, b, -, rfl⟩ := execEdgeBit0_next h; rfl
  | edgeBit1 now => obtain ⟨-, b, -, rfl⟩ := execEdgeBit1_next h; rfl
  | edgeBitErr now => obtain ⟨-, rfl⟩ := execEdgeBitErr_next h; rfl
  | edgeIgnore now => obtain ⟨-, rfl⟩ := execEdgeIgnore_next h; rfl
  | state now => cases readField_next h; rfl
  | lastResult now => cases readField_next h; rfl
  | getTemp now => cases readField_next h; rfl
  | getHumidity now => cases readField_next h; rfl

/-- All that any operation form can do when it goes on: read or reject, arm an attempt, one of the three
moves out of WakingUp and Reading without a bit, receive a bit, or only take the timestamp (R111 to R129). -/
theorem exec_next_cases {i : Instr} {s t : State} (h : exec i s = .next t) :
    (operationOfInstr i ≠ .edge ∧ t = complete s s.block t.output [] ∧ t.output ≠ none) ∨
    (∃ now, i = .startAccept now ∧ isIdle s.block.status = true ∧
      t = complete s (armAttempt now s.block) (some (.started true)) (wakeUpActions s.params)) ∨
    (∃ now, i = .edgeAckOk now ∧ s.block.status = .wakingUp ∧
      t = complete s (setStatus .reading (stampEdge now s.block)) none []) ∨
    (∃ now, i = .edgeAckErr now ∧ s.block.status = .wakingUp ∧
      t = complete s (raiseError .wakeUpError (stampEdge now s.block)) none []) ∨
    (∃ now bit b, (bit = false ∧ i = .edgeBit0 now ∨ bit = true ∧ i = .edgeBit1 now) ∧
      s.block.status = .reading ∧ receiveBit bit (stampEdge now s.block) = .next b ∧
      t = complete s b none []) ∨
    (∃ now, i = .edgeBitErr now ∧ s.block.status = .reading ∧
      t = complete s (raiseError .dataError (stampEdge now s.block)) none []) ∨
    (∃ now, i = .edgeIgnore now ∧ isIdle s.block.status = true ∧
      t = complete s (stampEdge now s.block) none []) := by
  cases i with
  | startAccept now =>
    obtain ⟨h1, rfl⟩ := execStartAccept_next h
    exact .inr (.inl ⟨now, rfl, h1, rfl⟩)
  | startReject now =>
    obtain ⟨-, rfl⟩ := execStartReject_next (now := now) h
    left; simp [operationOfInstr]
  | edgeAckOk now =>
    obtain ⟨h1, rfl⟩ := execEdgeAckOk_next h
    exact .inr (.inr (.inl ⟨now, rfl, (classify_status h1).1 (by simp), rfl⟩))
  | edgeAckErr now =>
    obtain ⟨h1, rfl⟩ := execEdgeAckErr_next h
    exact .inr (.inr (.inr (.inl ⟨now, rfl, (classify_status h1).1 (by simp), rfl⟩)))
  | edgeBit0 now =>
    obtain ⟨h1, b, hb, rfl⟩ := execEdgeBit0_next h
    exact .inr (.inr (.inr (.inr (.inl
      ⟨now, false, b, .inl ⟨rfl, rfl⟩, (classify_status h1).2.1 (by simp), hb, rfl⟩))))
  | edgeBit1 now =>
    obtain ⟨h1, b, hb, rfl⟩ := execEdgeBit1_next h
    exact .inr (.inr (.inr (.inr (.inl
      ⟨now, true, b, .inr ⟨rfl, rfl⟩, (classify_status h1).2.1 (by simp), hb, rfl⟩))))
  | edgeBitErr now =>
    obtain ⟨h1, rfl⟩ := execEdgeBitErr_next h
    exact .inr (.inr (.inr (.inr (.inr (.inl ⟨now, rfl, (classify_status h1).2.1 (by simp), rfl⟩)))))
  | edgeIgnore now =>
    obtain ⟨h1, rfl⟩ := execEdgeIgnore_next h
    refine .inr (.inr (.inr (.inr (.inr (.inr ⟨now, rfl, ?_, rfl⟩)))))
    rcases (classify_status h1).2.2 rfl with e | e <;> rw [e] <;> rfl
  | state now => cases readField_next h; left; simp [operationOfInstr]
  | lastResult now => cases readField_next h; left; simp [operationOfInstr]
  | getTemp now => cases readField_next h; left; simp [operationOfInstr]
  | getHumidity now => cases readField_next h; left; simp [operationOfInstr]

/-- A form reads nothing but the parameters and the block: in another state with the same ones it does the
same. -/
theorem exec_of_same_block {i : Instr} {s s' t : State} (h : exec i s = .next t)
    (hp : s'.params = s.params) (hb : s'.block = s.block) :
    exec i s' = .next (complete s' t.block t.output t.actions) := by
  have edge : ∀ {want : Symbol} {effect : Block → Outcome Block Fault Refusal} {now : Micros},
      edgeForm want effect now s = .next t →
      edgeForm want effect now s' = .next (complete s' t.block t.output t.actions) := by
    intro want effect now h
    obtain ⟨hc, b, hb', rfl⟩ := edgeForm_next h
    exact edgeForm_of_next (by rw [hp, hb]; exact hc) (by rw [hb]; exact hb')
  cases i with
  | startAccept now =>
    obtain ⟨hi, rfl⟩ := execStartAccept_next h
    simp [exec, execStartAccept, hb, hi, hp]
  | startReject now =>
    obtain ⟨hi, rfl⟩ := execStartReject_next (now := now) h
    simp [exec, execStartReject, hb, hi]
  | edgeAckOk now => simp only [exec, execEdgeAckOk] at h ⊢; exact edge h
  | edgeAckErr now => simp only [exec, execEdgeAckErr] at h ⊢; exact edge h
  | edgeBit0 now => simp only [exec, execEdgeBit0] at h ⊢; exact edge h
  | edgeBit1 now => simp only [exec, execEdgeBit1] at h ⊢; exact edge h
  | edgeBitErr now => simp only [exec, execEdgeBitErr] at h ⊢; exact edge h
  | edgeIgnore now => simp only [exec, execEdgeIgnore] at h ⊢; exact edge h
  | state now => cases readField_next h; simp [exec, execState, readField, hb]
  | lastResult now => cases readField_next h; simp [exec, execLastResult, readField, hb]
  | getTemp now => cases readField_next h; simp [exec, execGetTemp, readField, hb]
  | getHumidity now => cases readField_next h; simp [exec, execGetHumidity, readField, hb]

/-- How an operation form can be refused: only because the state does not select it. -/
theorem exec_refused {i : Instr} {s : State} {r : Refusal} (h : exec i s = .refused r) :
    r = .formNotSelected := by
  cases i with
  | startAccept now => simp only [exec, execStartAccept] at h; split at h <;> simp_all
  | startReject now => simp only [exec, execStartReject] at h; split at h <;> simp_all
  | edgeAckOk now => exact edgeForm_refused (effect := fun b => .next (setStatus .reading b)) (by simp) h
  | edgeAckErr now => exact edgeForm_refused (effect := fun b => .next (raiseError .wakeUpError b)) (by simp) h
  | edgeBit0 now => exact edgeForm_refused (receiveBit_ne_refused false) h
  | edgeBit1 now => exact edgeForm_refused (receiveBit_ne_refused true) h
  | edgeBitErr now => exact edgeForm_refused (effect := fun b => .next (raiseError .dataError b)) (by simp) h
  | edgeIgnore now => exact edgeForm_refused (effect := fun b => .next b) (by simp) h
  | state now => simp [exec, execState, readField] at h
  | lastResult now => simp [exec, execLastResult, readField] at h
  | getTemp now => simp [exec, execGetTemp, readField] at h
  | getHumidity now => simp [exec, execGetHumidity, readField] at h

/-! Fetching. -/

/-- Choosing an order uses at most the counter of free choices. -/
theorem edgeGoesFirst_frame (req : CallerRequest) (s : State) :
    (edgeGoesFirst req s).2 = { s with draws := (edgeGoesFirst req s).2.draws } := by
  unfold edgeGoesFirst; (repeat' split) <;> rfl

/-- A START presented with an edge goes first in a non-terminal status (R193). -/
theorem edgeGoesFirst_start_of_not_idle {req : CallerRequest} {s : State} (hr : requestStarts req = true)
    (h : isIdle s.block.status = false) : edgeGoesFirst req s = (false, s) := by
  simp [edgeGoesFirst, hr, h]

@[simp] theorem operationOf_opField_callerWord (op : CallerOp) (now : Micros) :
    operationOf (opField (callerWord op now)) = some (.caller op) := by
  cases op <;> simp [callerWord]

@[simp] theorem isCallerWord_callerWord (op : CallerOp) (now : Micros) :
    isCallerWord (callerWord op now) = true := by simp [isCallerWord]

@[simp] theorem isCallerWord_edge (now : Micros) : isCallerWord (wordOf .edge now) = false := by
  simp [isCallerWord]

/-- What a request that the phase allows issues when it is presented on its own: its first operation. -/
theorem presentRequest_of_allowed {req : CallerRequest} {s : State} (now : Micros)
    (h : requestRefusal req s.caller = none) :
    ∃ role op, presentRequest req now s = .issue role (callerWord op now) s ∧
      ((role = .direct ∧ req = .op op ∧ s.caller = .idle) ∨
       (role = .blockingStart ∧ req = .blockingRead ∧ op = .start ∧ s.caller = .idle) ∨
       (role = .poll ∧ req = .turn ∧ op = .state ∧ s.caller = .polling) ∨
       (role = .collect ∧ req = .turn ∧ op = .lastResult ∧ s.caller = .collecting)) := by
  cases req with
  | op op =>
    have hc : s.caller = .idle := by by_contra hne; simp [requestRefusal, hne] at h
    exact ⟨.direct, op, by simp [presentRequest, presentWord, hc], .inl ⟨rfl, rfl, hc⟩⟩
  | blockingRead =>
    have hc : s.caller = .idle := by by_contra hne; simp [requestRefusal, hne] at h
    exact ⟨.blockingStart, .start, by simp [presentRequest, presentBlockingRead, hc],
      .inr (.inl ⟨rfl, rfl, rfl, hc⟩)⟩
  | turn =>
    cases hc : s.caller with
    | idle => simp [requestRefusal, hc] at h
    | polling =>
      exact ⟨.poll, .state, by simp [presentRequest, callerTurn, hc, callerWord],
        .inr (.inr (.inl ⟨rfl, rfl, rfl, rfl⟩))⟩
    | collecting =>
      exact ⟨.collect, .lastResult, by simp [presentRequest, callerTurn, hc, callerWord],
        .inr (.inr (.inr ⟨rfl, rfl, rfl, rfl⟩))⟩

/-- All that a pair can be (R193): refused for the caller's phase, or the edge now and the request next,
or the request now and the edge next. -/
theorem arbitrate_cases (req : CallerRequest) (now : Micros) (s : State) :
    (∃ r, requestRefusal req s.caller = some r ∧ arbitrate req now s = .stop r) ∨
    (requestRefusal req s.caller = none ∧
      (((edgeGoesFirst req s).1 = true ∧ arbitrate req now s = .issue .direct (wordOf .edge now)
          { s with inputs := requestEvent req now :: s.inputs, draws := (edgeGoesFirst req s).2.draws }) ∨
       ((edgeGoesFirst req s).1 = false ∧ arbitrate req now s = presentRequest req now
          { s with inputs := .word (wordOf .edge now) :: s.inputs,
                   draws := (edgeGoesFirst req s).2.draws }))) := by
  unfold arbitrate
  cases hr : requestRefusal req s.caller with
  | some r => exact .inl ⟨r, rfl, rfl⟩
  | none =>
    right
    simp only
    rw [edgeGoesFirst_frame]
    cases ho : (edgeGoesFirst req s).1 <;> simp

/-- What a fetched operation is: an edge or another word on its own, a turn of the caller inside a
BLOCKING_READ, or the START of one. -/
def FetchedBy (s : State) (role : Role) (w : EventWord) : Prop :=
  (role = .poll ∧ s.caller = .polling ∧ w = callerWord .state 0) ∨
  (role = .collect ∧ s.caller = .collecting ∧ w = callerWord .lastResult 0) ∨
  (role = .direct ∧ (isCallerWord w = true → s.caller = .idle)) ∨
  (role = .blockingStart ∧ s.caller = .idle ∧ ∃ now, w = callerWord .start now)

theorem callerTurn_issue {r : Refusal} {s s' : State} {role : Role} {w : EventWord}
    (h : callerTurn r s = .issue role w s') : s' = s ∧ FetchedBy s role w := by
  unfold callerTurn at h; split at h <;> cases h <;> simp_all [FetchedBy]

theorem presentWord_issue {w w' : EventWord} {s s' : State} {role : Role}
    (h : presentWord w s = .issue role w' s') : s' = s ∧ FetchedBy s role w' := by
  unfold presentWord at h
  split at h
  · cases h
  · cases h; simp_all [FetchedBy]

theorem presentBlockingRead_issue {now : Micros} {w : EventWord} {s s' : State} {role : Role}
    (h : presentBlockingRead now s = .issue role w s') : s' = s ∧ FetchedBy s role w := by
  unfold presentBlockingRead at h
  split at h
  · cases h; simp_all [FetchedBy]
  · cases h

theorem presentRequest_issue {req : CallerRequest} {now : Micros} {w : EventWord} {s s' : State}
    {role : Role} (h : presentRequest req now s = .issue role w s') : s' = s ∧ FetchedBy s role w := by
  cases req with
  | op op => exact presentWord_issue h
  | blockingRead => exact presentBlockingRead_issue h
  | turn => exact callerTurn_issue h

theorem arbitrate_issue {req : CallerRequest} {now : Micros} {w : EventWord} {s s' : State} {role : Role}
    (h : arbitrate req now s = .issue role w s') :
    s' = { s with inputs := s'.inputs, draws := s'.draws } ∧ FetchedBy s role w := by
  rcases arbitrate_cases req now s with ⟨r, -, ha⟩ | ⟨-, ⟨-, ha⟩ | ⟨-, ha⟩⟩ <;> rw [ha] at h
  · cases h
  · cases h; exact ⟨rfl, by simp [FetchedBy]⟩
  · obtain ⟨rfl, hb⟩ := presentRequest_issue h; exact ⟨rfl, hb⟩

/-- All that fetching an operation can be. -/
theorem fetch_issue {s s' : State} {role : Role} {w : EventWord} (h : fetch s = .issue role w s') :
    s' = { s with inputs := s'.inputs, draws := s'.draws } ∧ FetchedBy s role w := by
  unfold fetch at h
  split at h
  · obtain ⟨rfl, hb⟩ := callerTurn_issue h; exact ⟨rfl, hb⟩
  · obtain ⟨rfl, hb⟩ := callerTurn_issue h; exact ⟨rfl, hb⟩
  · cases h
  · obtain ⟨rfl, hb⟩ := presentWord_issue h; exact ⟨rfl, hb⟩
  · obtain ⟨he, hb⟩ := arbitrate_issue h; exact ⟨he, hb⟩
  · obtain ⟨rfl, hb⟩ := presentBlockingRead_issue h; exact ⟨rfl, hb⟩

theorem callerTurn_ne_reset (r : Refusal) (s s' : State) : callerTurn r s ≠ .reset s' := by
  unfold callerTurn; split <;> simp

theorem presentWord_ne_reset (w : EventWord) (s s' : State) : presentWord w s ≠ .reset s' := by
  unfold presentWord; split <;> simp

theorem presentBlockingRead_ne_reset (now : Micros) (s s' : State) :
    presentBlockingRead now s ≠ .reset s' := by
  unfold presentBlockingRead; split <;> simp

theorem arbitrate_ne_reset (req : CallerRequest) (now : Micros) (s s' : State) :
    arbitrate req now s ≠ .reset s' := by
  rcases arbitrate_cases req now s with ⟨r, -, ha⟩ | ⟨-, ⟨-, ha⟩ | ⟨-, ha⟩⟩ <;> rw [ha]
  · simp
  · simp
  · cases req with
    | op op => exact presentWord_ne_reset _ _ _
    | blockingRead => exact presentBlockingRead_ne_reset _ _ _
    | turn => exact callerTurn_ne_reset _ _ _

/-- A reset is fetched only from a reset at the head of the inputs. -/
theorem fetch_reset {s s' : State} (h : fetch s = .reset s') :
    ∃ rest, s.inputs = .reset :: rest ∧ s' = { s with inputs := rest } := by
  unfold fetch at h
  split at h
  · exact absurd h (callerTurn_ne_reset _ _ _)
  · exact absurd h (callerTurn_ne_reset _ _ _)
  · rename_i rest heq; cases h; exact ⟨rest, heq, rfl⟩
  · exact absurd h (presentWord_ne_reset _ _ _)
  · exact absurd h (arbitrate_ne_reset _ _ _ _)
  · exact absurd h (presentBlockingRead_ne_reset _ _ _)

/-! The step. -/

theorem rejectWord_eq (e : DecodeReject) : ∃ r, rejectWord e = .refused r := by
  cases e; exact ⟨_, rfl⟩

/-- All that a step can do when it answers a next state: a reset, or one decoded operation form. -/
theorem step_next {s t : State} (h : step s = .next t) :
    (∃ s', fetch s = .reset s' ∧ t = applyReset s') ∨
    (∃ role w s' i u, fetch s = .issue role w s' ∧ decode s' w = .ok i ∧ exec i s' = .next u ∧
      t = settleCaller role u) := by
  unfold step at h
  split at h
  · cases h
  · rename_i s' hf; cases h; exact .inl ⟨s', hf, rfl⟩
  · rename_i role w s' hf
    split at h
    · rename_i e _; obtain ⟨r, hr⟩ := rejectWord_eq e; rw [hr] at h; cases h
    · rename_i i hd
      unfold finish at h
      split at h
      · rename_i u he; cases h; exact .inr ⟨role, w, s', i, u, hf, hd, he, rfl⟩
      · cases h
      · cases h

/-- How a step can be refused: by the fetch, by a reserved code, or by a form that is not selected. -/
theorem step_refused {s : State} {r : Refusal} (h : step s = .refused r) :
    fetch s = .stop r ∨ r = .formNotSelected ∨ ∃ code, r = .reservedOperation code := by
  unfold step at h
  split at h
  · rename_i r' hf; cases h; exact .inl hf
  · cases h
  · split at h
    · rename_i e _; cases e; cases h; exact .inr (.inr ⟨_, rfl⟩)
    · unfold finish at h
      split at h
      · cases h
      · cases h
      · rename_i r' he; cases h; exact .inr (.inl (exec_refused he))

/-- How a step can fault: only in an operation form. -/
theorem step_fault {s : State} {f : Fault} (h : step s = .fault f) :
    ∃ role w s' i, fetch s = .issue role w s' ∧ decode s' w = .ok i ∧ exec i s' = .fault f := by
  unfold step at h
  split at h
  · cases h
  · cases h
  · rename_i role w s' hf
    split at h
    · rename_i e _; obtain ⟨r, hr⟩ := rejectWord_eq e; rw [hr] at h; cases h
    · rename_i i hd
      unfold finish at h
      split at h
      · cases h
      · rename_i g he; cases h; exact ⟨role, w, s', i, hf, hd, he⟩
      · cases h

end Sys2Proof.Machine
end

