-- ==== Sys2Proof/Machine/Ports.lean ====
section
/-! DEFINITION. What the suggested ports of 30_encoding.md R98 carry after an operation. No step reads
them. -/

namespace Sys2Proof.Machine

/-- `c_rdata`: an accessor's return value, 16 bits, zero-extended for `status` and `result` (R98);
START's return value goes to `c_started` instead. -/
def cRdata : Output → Option (BitVec 16)
  | .started _ => none
  | .status v => some ((statusCode v).setWidth 16)
  | .result v => some ((resultCode v).setWidth 16)
  | .temperature v => some v
  | .humidity v => some v

/-- `c_started`: the return value of START (R98). -/
def cStarted : Output → Option Bool
  | .started b => some b
  | .status _ => none
  | .result _ => none
  | .temperature _ => none
  | .humidity _ => none

/-- The line and delay ports while one wake-up action is handed over (R98, R206). -/
structure LinePorts where
  driveLow : Bool
  release : Bool
  delayReq : Bool
  delayUs : Micros
  deriving DecidableEq, Repr

/-- One action on the ports of R98; with no delay requested, `delay_us` is zero here. -/
def linePorts : Action → LinePorts
  | .driveLow => { driveLow := true, release := false, delayReq := false, delayUs := 0 }
  | .release => { driveLow := false, release := true, delayReq := false, delayUs := 0 }
  | .delay us => { driveLow := false, release := false, delayReq := true, delayUs := us }

/-- The four readable fields, continuously out (R98), with the codes of R23 and R25. -/
structure FieldPorts where
  status : BitVec 2
  result : BitVec 3
  temperature : Tenths
  humidity : Tenths
  deriving DecidableEq, Repr

/-- The readable fields of a block; the hidden ones are not among them (R34). -/
def fieldPorts (b : Block) : FieldPorts where
  status := statusCode b.status
  result := resultCode b.result
  temperature := b.temperature
  humidity := b.humidity

end Sys2Proof.Machine
end

