-- ==== Sys2Proof/Tests/Slice0.lean ====
section
/-! SUPPORT. Tests: expected results are those of 95_test_vectors.md (the part is named in each comment)
or are counted by hand from a rule. Then a witness for every statement that has hypotheses. -/

namespace Sys2Proof.Tests

open Sys2Proof Sys2Proof.Machine Host

/-! Small states. The parameters are the defaults of R11 with numbers put for the OPEN ones. -/

def params : Params where
  ackMin := 125
  ackMax := 190
  bitMin := 60
  bitMax := 145
  bitThreshold := 100
  tTriggerUs := 18000
  tSettleUs := 30
  humReset := 7
  tempReset := 9
  simulOrder := .either

def blk (st : Status) (r : Result) (d : Data) (byteI bitI : BitVec 3) (ts : Micros) (t h : Tenths) : Block where
  status := st
  result := r
  data := d
  bitIndex := bitI
  byteIndex := byteI
  lastEdgeTimestamp := ts
  temperature := t
  humidity := h

/-- A machine with the given block and pending events, the caller idle. -/
def mk (b : Block) (ev : List Event := []) (c : CallerPhase := .idle) : State where
  params := params
  block := b
  inputs := ev
  output := none
  actions := []
  caller := c
  blockingReturn := none
  draws := 0

def fresh : Block := Block.reset params
def waking : Block := blk .wakingUp .none zeroData 0 7 1000 9 7
def reading : Block := blk .reading .none zeroData 0 7 2000 9 7
/-- P4 before its noise edge -/
def reading3 : Block := blk .reading .none #v[0x40, 0, 0, 0, 0] 0 4 5450 9 7
/-- P2 before its last edge -/
def reading39 : Block := blk .reading .none #v[0x02, 0x8C, 0x80, 0x65, 0x72] 4 0 3904 9 7
/-- after P1 -/
def doneP1 : Block := blk .done .ok #v[0x01, 0x90, 0x00, 0xC8, 0x59] 5 7 4850 200 400
/-- after P4 -/
def failed : Block := blk .invalid .dataError #v[0x40, 0, 0, 0, 0] 0 4 5540 9 7

def nextOf (o : Outcome State Fault Refusal) : Option State :=
  match o with
  | .next t => some t
  | .fault _ => none
  | .refused _ => none

def refusalOf (o : Outcome State Fault Refusal) : Option Refusal :=
  match o with
  | .next _ => none
  | .fault _ => none
  | .refused r => some r

def faultOf (o : Outcome State Fault Refusal) : Option Fault :=
  match o with
  | .next _ => none
  | .fault f => some f
  | .refused _ => none

def blockOf (o : Outcome State Fault Refusal) : Option Block := (nextOf o).map (·.block)

def outputOf (o : Outcome State Fault Refusal) : Option (Option Output) := (nextOf o).map (·.output)

/-! ### Well-formedness smoke (R85, R11) -/

theorem test_wf_refuses_state_with_now : (Instr.state 1).wf = false := by decide
theorem test_wf_refuses_lastResult_with_now : (Instr.lastResult 0x80000000).wf = false := by decide
theorem test_wf_refuses_getTemp_with_now : (Instr.getTemp 1).wf = false := by decide
theorem test_wf_refuses_getHumidity_with_now : (Instr.getHumidity 0xFFFFFFFF).wf = false := by decide
theorem test_wf_accepts_start_with_any_now : (Instr.startAccept 0xFFFFFFFF).wf = true := by decide
theorem test_params_wf : params.wf = true := by decide
theorem test_params_refuse_ack_window : (Params.wf { params with ackMin := 191 }) = false := by decide
theorem test_params_refuse_threshold_below_window : (Params.wf { params with bitThreshold := 59 }) = false := by
  decide
theorem test_params_refuse_threshold_at_bitMax : (Params.wf { params with bitThreshold := 145 }) = false := by
  decide

/-! ### Decoding: the words of R85 written out bit by bit, in a state that selects the form (V-L) -/

theorem test_decode_startAccept :
    (decode (mk fresh) 0b00000000000000000000000001111101000).toOption = some (.startAccept 1000) := by decide
theorem test_decode_startReject :
    (decode (mk waking) 0b00000000000000000000000001111101101).toOption = some (.startReject 1005) := by decide
theorem test_decode_edgeAckOk :
    (decode (mk waking) 0b00100000000000000000000010001111110).toOption = some (.edgeAckOk 1150) := by decide
theorem test_decode_edgeAckErr :
    (decode (mk waking) 0b00100000000000000000000010100010100).toOption = some (.edgeAckErr 1300) := by decide
theorem test_decode_edgeBit0 :
    (decode (mk reading) 0b00100000000000000000000100000100000).toOption = some (.edgeBit0 2080) := by decide
theorem test_decode_edgeBit1 :
    (decode (mk reading) 0b00100000000000000000000100001010010).toOption = some (.edgeBit1 2130) := by decide
theorem test_decode_edgeBitErr :
    (decode (mk reading3) 0b00100000000000000000001010101010100).toOption = some (.edgeBitErr 5460) := by decide
theorem test_decode_edgeIgnore :
    (decode (mk failed) 0b00100000000000000000001010110100100).toOption = some (.edgeIgnore 5540) := by decide
theorem test_decode_state :
    (decode (mk fresh) 0b01000000000000000000000000000000000).toOption = some (.state 0) := by decide
theorem test_decode_lastResult :
    (decode (mk fresh) 0b01100000000000000000000000000000000).toOption = some (.lastResult 0) := by decide
theorem test_decode_getTemp :
    (decode (mk fresh) 0b10000000000000000000000000000000000).toOption = some (.getTemp 0) := by decide
theorem test_decode_getHumidity :
    (decode (mk fresh) 0b10100000000000000000000000000000000).toOption = some (.getHumidity 0) := by decide
/-- V-L: the reserved codes. -/
theorem test_decode_reserved :
    (decode (mk fresh) 0b11000000000000000000000000000000000).toOption = none ∧
    (decode (mk fresh) 0b11111111111111111111111111111111111).toOption = none := by decide
/-- R84: `op` first, nine hex digits. -/
theorem test_encode_words :
    encode (.edgeIgnore 1150) = 0x10000047E ∧ encode (.startAccept 0xFFFFFFF0) = 0x0FFFFFFF0 := by decide

/-! ### One step of each form -/

/-- V-F row 2 with R113: START from Done keeps `result` and the values. -/
theorem test_startAccept_from_done :
    nextOf (exec (.startAccept 3000000) (mk doneP1)) =
      some { mk (blk .wakingUp .ok zeroData 0 7 3000000 200 400) with
        output := some (.started true)
        actions := [.driveLow, .delay 18000, .release, .delay 30] } := by decide
/-- V-F row 3. -/
theorem test_startAccept_from_invalid :
    blockOf (exec (.startAccept 9000) (mk failed)) = some (blk .wakingUp .dataError zeroData 0 7 9000 9 7) := by
  decide
/-- V-F row 4 (P5 step 1): the timestamp stays 1000. -/
theorem test_startReject_waking :
    nextOf (exec (.startReject 1005) (mk waking)) = some { mk waking with output := some (.started false) } := by
  decide
/-- V-F row 5. -/
theorem test_startReject_reading : blockOf (exec (.startReject 5455) (mk reading3)) = some reading3 := by decide
/-- V-A row 125. -/
theorem test_edgeAckOk_at_min :
    blockOf (exec (.edgeAckOk 1125) (mk waking)) = some (blk .reading .none zeroData 0 7 1125 9 7) := by decide
/-- V-G row 3: the subtraction wraps. -/
theorem test_edgeAckOk_across_wrap :
    blockOf (exec (.edgeAckOk 0x86) (mk { waking with lastEdgeTimestamp := 0xFFFFFFF0 })) =
      some (blk .reading .none zeroData 0 7 0x86 9 7) := by decide
/-- V-A row 191. -/
theorem test_edgeAckErr_above_max :
    blockOf (exec (.edgeAckErr 1191) (mk waking)) = some (blk .invalid .wakeUpError zeroData 0 7 1191 9 7) := by
  decide
/-- V-A row 65686: `elapsed` is not truncated (R144). -/
theorem test_edgeAckErr_no_truncation :
    blockOf (exec (.edgeAckErr 66686) (mk waking)) = some (blk .invalid .wakeUpError zeroData 0 7 66686 9 7) := by
  decide
/-- V-B row 100. -/
theorem test_edgeBit0_at_threshold :
    blockOf (exec (.edgeBit0 2100) (mk reading)) = some (blk .reading .none zeroData 0 6 2100 9 7) := by decide
/-- V-C row `02 8C 80 65` with checksum `72`: ChecksumMismatch, and the values stay. -/
theorem test_edgeBit0_frame_end_mismatch :
    blockOf (exec (.edgeBit0 3984) (mk reading39)) =
      some (blk .invalid .checksumMismatch #v[0x02, 0x8C, 0x80, 0x65, 0x72] 5 7 3984 9 7) := by decide
/-- V-B row 101. -/
theorem test_edgeBit1_above_threshold :
    blockOf (exec (.edgeBit1 2101) (mk reading)) = some (blk .reading .none #v[0x80, 0, 0, 0, 0] 0 6 2101 9 7) := by
  decide
/-- P2 step 41: the frame end with a match; the temperature register is 0xFF9B. -/
theorem test_edgeBit1_frame_end_match :
    blockOf (exec (.edgeBit1 4034) (mk reading39)) =
      some (blk .done .ok #v[0x02, 0x8C, 0x80, 0x65, 0x73] 5 7 4034 0xFF9B 652) := by decide
/-- V-B row 146. -/
theorem test_edgeBitErr_above_max :
    blockOf (exec (.edgeBitErr 2146) (mk reading)) = some (blk .invalid .dataError zeroData 0 7 2146 9 7) := by
  decide
/-- P4 step 5. -/
theorem test_edgeBitErr_noise :
    blockOf (exec (.edgeBitErr 5460) (mk reading3)) =
      some (blk .invalid .dataError #v[0x40, 0, 0, 0, 0] 0 4 5460 9 7) := by decide
/-- V-H row 2. -/
theorem test_edgeIgnore_done :
    nextOf (exec (.edgeIgnore 4930) (mk doneP1)) = some (mk { doneP1 with lastEdgeTimestamp := 4930 }) := by decide
/-- V-H row 3: no bit is stored although 80 is a valid width. -/
theorem test_edgeIgnore_invalid :
    nextOf (exec (.edgeIgnore 5620) (mk failed)) = some (mk { failed with lastEdgeTimestamp := 5620 }) := by decide
/-- V-I. -/
theorem test_state : outputOf (exec (.state 0) (mk reading)) = some (some (.status .reading)) := by decide
theorem test_lastResult : outputOf (exec (.lastResult 0) (mk failed)) = some (some (.result .dataError)) := by decide
theorem test_getTemp : outputOf (exec (.getTemp 0) (mk doneP1)) = some (some (.temperature 0xC8)) := by decide
theorem test_getHumidity : outputOf (exec (.getHumidity 0) (mk doneP1)) = some (some (.humidity 0x190)) := by decide

/-- Log entry 9: the stop outside R153's precondition. -/
theorem test_cursor_out_of_range :
    faultOf (exec (.edgeBit0 2080) (mk { reading with byteIndex := 5 })) = some .cursorOutOfRange := by decide
/-- Log entry 8: a form the state does not select. -/
theorem test_form_not_selected :
    refusalOf (exec (.edgeAckOk 1124) (mk waking)) = some .formNotSelected ∧
    refusalOf (exec (.startAccept 5) (mk reading)) = some .formNotSelected := by decide

/-! ### The decoders of one value (V-C, V-D, V-E) -/

theorem test_checksum_wraps :
    checksumOk #v[0xFF, 0xFF, 0xFF, 0xFF, 0xFC] = true ∧ checksumOk #v[0x01, 0x90, 0x00, 0xC8, 0x29] = false := by
  decide
theorem test_temperature_signs :
    decodeTemperature #v[0, 0, 0x8A, 0, 0] = 0xF600 ∧ decodeTemperature #v[0, 0, 0x80, 0, 0] = 0 ∧
    decodeTemperature #v[0, 0, 0xFF, 0xFF, 0] = 0x8001 ∧ decodeTemperature #v[0, 0, 0x7F, 0xFF, 0] = 0x7FFF := by
  decide
theorem test_humidity : decodeHumidity #v[0x03, 0xE8, 0, 0, 0] = 1000 := by decide
theorem test_accumulate_byte_end :
    accumulate true (blk .reading .none #v[0, 0x80, 0, 0, 0] 1 4 0 0 0) =
      blk .reading .none #v[0, 0x90, 0, 0, 0] 1 3 0 0 0 := by decide

/-! ### The host's interface, the agents and the ports -/

theorem test_decodeTableWord :
    decodeTableWord 40 0x0000003E8 = some (.startAccept 1000) ∧ decodeTableWord 40 0x600000000 = none ∧
    decodeTableWord 40 0x2DEADBEEF = some (.state 0xDEADBEEF) := by decide
theorem test_withFetchWord_runs_the_word :
    outputOf (step ((mk doneP1).withFetchWord 40 0x400000000)) = some (some (.temperature 200)) ∧
    blockOf (step ((mk waking).withFetchWord 40 0x10000047E)) = some (blk .reading .none zeroData 0 7 1150 9 7) := by
  decide
/-- R14, U9: nothing pending and nobody polling is no step. -/
theorem test_no_event : refusalOf (step (mk fresh)) = some .noEvent := by decide
/-- P8: a reset in an attempt; `result` None and the reset parameters. -/
theorem test_reset_in_attempt : blockOf (step (mk reading3 [.reset])) = some fresh := by decide
/-- A terminal block with a START and an edge presented together at 7000 (V-K). -/
def paired (b : Block) (order : SimulOrder) (ackMin : Micros := 125) : State :=
  { mk b [.together (.op .start) 7000] with params := { params with simulOrder := order, ackMin := ackMin } }

/-- V-K, START_FIRST: `elapsed` 0 raises WakeUpError. -/
theorem test_together_start_first :
    blockOf (runSteps 2 (paired doneP1 .startFirst)) = some (blk .invalid .wakeUpError zeroData 0 7 7000 200 400) := by
  decide
/-- V-K, EDGE_FIRST: a fresh attempt. -/
theorem test_together_edge_first :
    blockOf (runSteps 2 (paired doneP1 .edgeFirst)) = some (blk .wakingUp .ok zeroData 0 7 7000 200 400) := by decide
/-- R193: in Reading START is START.REJECT whatever the order, here with an edge that ends the attempt. -/
theorem test_together_in_attempt :
    outputOf (step (paired reading39 .edgeFirst)) = some (some (.started false)) ∧
    blockOf (runSteps 2 (paired reading39 .edgeFirst)) =
      some { reading39 with status := .invalid, result := .dataError, lastEdgeTimestamp := 7000 } := by decide
/-- R193, R114: the START of a BLOCKING_READ with an edge, START first. -/
theorem test_together_blockingRead :
    (nextOf (runSteps 2 { paired fresh .startFirst with inputs := [.together .blockingRead 7000] })).map
      (fun t => (t.caller, t.block.result)) = some (.polling, .wakeUpError) := by decide
/-- P6: in the loop the caller sees Reading and stays; after a terminal status it returns the result. -/
theorem test_blocking_read :
    (nextOf (step (mk reading3 [] .polling))).map (·.caller) = some .polling ∧
    (nextOf (runSteps 2 (mk failed [] .polling))).map (·.blockingReturn) = some (some .dataError) := by decide
/-- R96: `EDGE +d` counts from the sample before it. -/
theorem test_expandTrace :
    expandTrace 0 [.start 1000, .edgeAfter 150, .edgeAt 1300] =
      [.word 0x0000003E8, .word 0x10000047E, .word 0x100000514] := by decide
/-- R98 with the codes of R23 and R25. -/
theorem test_ports :
    cRdata (.status .done) = some 2 ∧ cRdata (.result .dataError) = some 4 ∧ cRdata (.temperature 0xFF9B) = some 0xFF9B ∧
    cStarted (.started true) = some true ∧ cRdata (.started true) = none ∧
    linePorts (.delay 30) = { driveLow := false, release := false, delayReq := true, delayUs := 30 } ∧
    fieldPorts failed = { status := 3, result := 4, temperature := 9, humidity := 7 } := by decide

/-! ### Witnesses: states and operands that meet the hypotheses of the statements -/

theorem reset_keeps_inv : SafeState (mk fresh) := by
  unfold SafeState cursorInv dataInv resultInv; decide
theorem waking_inv (ev : List Event) : SafeState (mk waking ev) :=
  show SafeState (mk waking) by unfold SafeState cursorInv dataInv resultInv; decide
theorem reading_inv (ev : List Event) : SafeState (mk reading ev) :=
  show SafeState (mk reading) by unfold SafeState cursorInv dataInv resultInv; decide
theorem reading39_inv (ev : List Event) : SafeState (mk reading39 ev) :=
  show SafeState (mk reading39) by unfold SafeState cursorInv dataInv resultInv; decide
theorem done_inv (ev : List Event) : SafeState (mk doneP1 ev) :=
  show SafeState (mk doneP1) by unfold SafeState cursorInv dataInv resultInv; decide
theorem failed_inv (ev : List Event) : SafeState (mk failed ev) :=
  show SafeState (mk failed) by unfold SafeState cursorInv dataInv resultInv; decide
theorem done_collecting_inv : SafeState (mk doneP1 [] .collecting) := by
  unfold SafeState cursorInv dataInv resultInv; decide

/-- O2, O30: every form is selected in a safe state, at both ends of its window. -/
theorem witness_selects :
    selects (mk fresh) (.startAccept 0) ∧ selects (mk doneP1) (.startAccept 0) ∧
    selects (mk waking) (.startReject 0) ∧ selects (mk reading) (.startReject 0) ∧
    selects (mk waking) (.edgeAckOk 1125) ∧ selects (mk waking) (.edgeAckOk 1190) ∧
    selects (mk waking) (.edgeAckErr 1124) ∧ selects (mk waking) (.edgeAckErr 1191) ∧
    selects (mk reading) (.edgeBit0 2060) ∧ selects (mk reading) (.edgeBit0 2100) ∧
    selects (mk reading) (.edgeBit1 2101) ∧ selects (mk reading) (.edgeBit1 2145) ∧
    selects (mk reading) (.edgeBitErr 2059) ∧ selects (mk reading) (.edgeBitErr 2146) ∧
    selects (mk doneP1) (.edgeIgnore 0) ∧ selects (mk failed) (.edgeIgnore 0) ∧
    selects (mk reading) (.state 5) ∧ selects (mk reading) (.lastResult 5) ∧
    selects (mk reading) (.getTemp 5) ∧ selects (mk reading) (.getHumidity 5) := by
  unfold selects; decide
theorem witness_not_selected :
    ¬ selects (mk reading) (.startAccept 0) ∧ ¬ selects (mk waking) (.edgeAckOk 1191) ∧
    ¬ selects (mk reading) (.edgeBit0 2101) ∧ ¬ selects (mk reading) (.edgeBit1 2100) := by
  unfold selects; decide
/-- O3, O4, O5, O6 (see the decode tests too): words with the least and the greatest code. -/
theorem witness_words :
    (mk fresh).params.wf = true ∧ (0x000000000#35).toNat / 2 ^ 32 < 6 ∧ (0x5FFFFFFFF#35).toNat / 2 ^ 32 < 6 ∧
    6 ≤ (0x600000000#35).toNat / 2 ^ 32 ∧ 6 ≤ (0x7FFFFFFFF#35).toNat / 2 ^ 32 ∧
    (mk fresh [.word 0x600000000]).inputs = [.word 0x600000000] := by decide
theorem witness_StepRunsDecodedWord :
    ((mk fresh [.word 0x0000003E8]).caller = .idle ∧
      (decode (mk fresh [.word 0x0000003E8]) 0x0000003E8).toOption = some (.startAccept 1000)) ∧
    ((mk waking [.word 0x10000047E] .polling).caller ≠ .idle ∧ (0x10000047E#35).toNat / 2 ^ 32 = 1 ∧
      (decode (mk waking [.word 0x10000047E] .polling) 0x10000047E).toOption = some (.edgeAckOk 1150)) := by decide
/-- O8 to O11, O16, O17: both statuses, and the clock samples next to the ends of the windows. -/
theorem witness_start_hypotheses :
    (mk fresh).block.status = .invalid ∧ (mk doneP1).block.status = .done ∧
    (mk waking).block.status = .wakingUp ∧ (mk reading).block.status = .reading := by decide
theorem witness_ack_hypotheses :
    params.ackMin ≤ 1125 - waking.lastEdgeTimestamp ∧ 1190 - waking.lastEdgeTimestamp ≤ params.ackMax ∧
    1124 - waking.lastEdgeTimestamp < params.ackMin ∧ params.ackMax < 1191 - waking.lastEdgeTimestamp := by decide
theorem witness_bit_error_hypotheses :
    2059 - reading.lastEdgeTimestamp < params.bitMin ∧ params.bitMax < 2146 - reading.lastEdgeTimestamp := by decide
/-- O12, O13: the first position and the last before the 40th bit, at the ends of the windows. -/
theorem witness_bit_hypotheses :
    position reading < 39 ∧ position { reading39 with bitIndex := 1 } = 38 ∧
    params.bitMin ≤ 2060 - reading.lastEdgeTimestamp ∧ 2100 - reading.lastEdgeTimestamp ≤ params.bitThreshold ∧
    params.bitThreshold < 2101 - reading.lastEdgeTimestamp ∧ 2145 - reading.lastEdgeTimestamp ≤ params.bitMax := by
  decide
/-- O14: a matching frame whose last bit is 1, and one whose last bit is 0. -/
theorem witness_frame_match :
    position reading39 = 39 ∧ bitFormAndWindow (mk reading39) 4034 true (.edgeBit1 4034) ∧
    (let d := lastBitStored true reading39.data; d[0] + d[1] + d[2] + d[3] = d[4]) ∧
    bitFormAndWindow (mk { reading39 with data := zeroData }) 3964 false (.edgeBit0 3964) ∧
    (let d := lastBitStored false zeroData; d[0] + d[1] + d[2] + d[3] = d[4]) := by
  unfold bitFormAndWindow; decide
/-- O15: a frame without a match, with either last bit. -/
theorem witness_frame_mismatch :
    bitFormAndWindow (mk reading39) 4004 false (.edgeBit0 4004) ∧
    (let d := lastBitStored false reading39.data; d[0] + d[1] + d[2] + d[3] ≠ d[4]) ∧
    bitFormAndWindow (mk { reading39 with data := zeroData }) 4049 true (.edgeBit1 4049) ∧
    (let d := lastBitStored true zeroData; d[0] + d[1] + d[2] + d[3] ≠ d[4]) := by
  unfold bitFormAndWindow; decide
/-- O18, O31 to O38: every form completes somewhere; the EDGE forms carry code 1. -/
theorem witness_forms_complete :
    (nextOf (exec (.startAccept 0) (mk fresh))).isSome = true ∧ (nextOf (exec (.startReject 0) (mk waking))).isSome = true ∧
    (nextOf (exec (.edgeAckOk 1190) (mk waking))).isSome = true ∧ (nextOf (exec (.edgeAckErr 1124) (mk waking))).isSome = true ∧
    (nextOf (exec (.edgeBit0 2060) (mk reading))).isSome = true ∧ (nextOf (exec (.edgeBit1 2145) (mk reading))).isSome = true ∧
    (nextOf (exec (.edgeBitErr 2059) (mk reading))).isSome = true ∧ (nextOf (exec (.edgeIgnore 0) (mk doneP1))).isSome = true ∧
    (nextOf (exec (.state 1) (mk reading))).isSome = true ∧ (nextOf (exec (.lastResult 1) (mk reading))).isSome = true ∧
    (nextOf (exec (.getTemp 1) (mk reading))).isSome = true ∧ (nextOf (exec (.getHumidity 1) (mk reading))).isSome = true ∧
    (encode (.edgeBit1 2145)).toNat / 2 ^ 32 = 1 ∧ 2 ≤ (encode (.state 1)).toNat / 2 ^ 32 := by decide
/-- O20 to O23: the last byte and the last bit; a zero byte at the start of byte 4. -/
theorem witness_accumulator_hypotheses :
    reading39.byteIndex ≤ 4 ∧ position reading39 = 39 ∧ (4 : Nat) ≤ 4 ∧ (7 : Nat) ≤ 7 ∧
    (blk .reading .none #v[1, 2, 3, 4, 0] 4 7 0 0 0).byteIndex ≤ 4 ∧ byteOf #v[1, 2, 3, 4, 0] 4 = 0 := by decide
/-- O34: each of the three errors enters Invalid. -/
theorem witness_ErrorEntryKeepsTheRest :
    (blockOf (exec (.edgeAckErr 1124) (mk waking))).map (·.status) = some .invalid ∧
    (blockOf (exec (.edgeBitErr 2059) (mk reading))).map (·.status) = some .invalid ∧
    (blockOf (exec (.edgeBit0 3984) (mk reading39))).map (·.status) = some .invalid := by decide
/-- O35, O36: a caller's operation in an attempt, and an accepted START. -/
theorem witness_caller_in_attempt :
    (encode (.startReject 5)).toNat / 2 ^ 32 ≠ 1 ∧ isIdle reading.status = false ∧
    (nextOf (exec (.startAccept 5) (mk fresh))).map (fun t => t.actions != []) = some true := by decide
/-- O37, O43: a step from a safe state. -/
theorem witness_safe_step :
    SafeState (mk waking [.word 0x10000047E]) ∧ (nextOf (step (mk waking [.word 0x10000047E]))).isSome = true :=
  ⟨waking_inv _, by decide⟩
theorem witness_safe_last_step :
    SafeState (mk reading39 [.word 0x100000FC2]) ∧
    (blockOf (step (mk reading39 [.word 0x100000FC2]))).map (·.status) = some .done :=
  ⟨reading39_inv _, by decide⟩
/-- O39: two different states that differ in hidden fields only. -/
theorem witness_sameButHidden :
    sameButHidden (mk failed) (mk { failed with data := zeroData, byteIndex := 6, lastEdgeTimestamp := 1 }) ∧
    mk failed ≠ mk { failed with data := zeroData, byteIndex := 6, lastEdgeTimestamp := 1 } := by
  unfold sameButHidden; decide
/-- O41: a reset in an attempt, and one in a BLOCKING_READ. -/
theorem witness_reset_pending :
    (mk reading3 [.reset]).inputs = [.reset] ∧ (mk reading3 [.reset] .polling).caller = .polling := by decide
/-- O45: Done and Invalid, with edges and accessors pending. -/
theorem witness_TerminalStatusIsStable :
    SafeState (mk doneP1 [.word (wordOf .edge 5000), .word (wordOf (.caller .getTemp) 0)]) ∧
    SafeState (mk failed [.word (wordOf .edge 5620)]) ∧ isIdle doneP1.status = true ∧ isIdle failed.status = true :=
  ⟨done_inv _, failed_inv _, by decide⟩
/-- O46: 41 pending edges, and 40. -/
theorem witness_AttemptEndsWithin41Edges :
    SafeState (mk waking ((List.replicate 41 (1150 : Micros)).map (fun now => .word (wordOf .edge now)))) ∧
    (List.replicate 41 (1150 : Micros)).length = 41 ∧ (List.replicate 40 (1150 : Micros)).length ≤ 40 :=
  ⟨waking_inv _, by decide⟩
/-- O47: the fastest frame and the slowest (P7), at the ends of the windows. -/
theorem witness_FortyPulses :
    SafeState (mk waking (expandTrace 1000 (((125 : Micros) :: List.replicate 40 60).map .edgeAfter))) ∧
    SafeState (mk waking (expandTrace 1000 (((190 : Micros) :: List.replicate 40 145).map .edgeAfter))) ∧
    (List.replicate 40 (60 : Micros)).length = 40 ∧ params.ackMin ≤ 125 ∧ 190 ≤ params.ackMax ∧
    (∀ p ∈ List.replicate 40 (60 : Micros), params.bitMin ≤ p ∧ p ≤ params.bitMax) ∧
    (∀ p ∈ List.replicate 40 (145 : Micros), params.bitMin ≤ p ∧ p ≤ params.bitMax) :=
  ⟨waking_inv _, waking_inv _, by decide, by decide, by decide,
    fun _ h => List.eq_of_mem_replicate h ▸ by decide, fun _ h => List.eq_of_mem_replicate h ▸ by decide⟩
/-- O48, O49, O54: two operations pending together, in every status, the caller idle; in Done and Invalid
with each order, and at the last bit of an attempt. -/
theorem witness_together :
    (∀ order, (paired fresh order).caller = .idle ∧ (paired fresh order).params.simulOrder = order) ∧
    isIdle fresh.status = true ∧ isIdle doneP1.status = true ∧
    isIdle waking.status = false ∧ isIdle reading39.status = false ∧
    SafeState (mk waking [.together (.op .start) 1190]) ∧ SafeState (mk reading39 [.together (.op .start) 4034]) ∧
    SafeState (mk reading39 [.together (.op .getTemp) 4034]) ∧ CallerOp.getTemp ≠ .start ∧
    SafeState (mk reading39 [.together .blockingRead 4034]) ∧ 0 < params.ackMin :=
  ⟨fun _ => ⟨rfl, rfl⟩, by decide, by decide, by decide, by decide, waking_inv _, reading39_inv _,
    reading39_inv _, by decide, reading39_inv _, by decide⟩
/-- O48: with ACK_MIN zero the edge is an acknowledgement. -/
theorem witness_together_ackMin_zero :
    blockOf (runSteps 2 (paired fresh .startFirst 0)) = some (blk .reading .none zeroData 0 7 7000 9 7) := by decide
/-- O55: a turn of the polling caller with the edge that ends the attempt, and of the collecting caller. -/
theorem witness_turn_together :
    SafeState (mk reading39 [.together .turn 4034] .polling) ∧
    SafeState (mk doneP1 [.together .turn 5000] .collecting) ∧
    (mk reading39 [.together .turn 4034] .polling).caller ≠ .idle :=
  ⟨by unfold SafeState cursorInv dataInv resultInv; decide,
    by unfold SafeState cursorInv dataInv resultInv; decide, by decide⟩
/-- O53, O56: what is refused in each phase of the caller. -/
theorem witness_caller_refusals :
    refusalOf (step (mk reading [.together (.op .state) 5] .polling)) = some .callerBusy ∧
    refusalOf (step (mk reading [.together .blockingRead 5] .polling)) = some .callerBusy ∧
    refusalOf (step (mk doneP1 [.blockingRead 5] .collecting)) = some .callerBusy ∧
    refusalOf (step (mk reading [.callerTurn])) = some .callerIdle ∧
    refusalOf (step (mk reading [.together .turn 5])) = some .callerIdle ∧
    (mk fresh).inputs = [] ∧ (mk fresh).caller = .idle := by decide
/-- O50 to O53: the caller in each phase, and the words presented meanwhile. -/
theorem witness_blocking :
    (mk fresh [.blockingRead 1000]).caller = .idle ∧ (mk reading [.blockingRead 1000]).caller = .idle ∧
    (mk reading [.callerTurn] .polling).caller = .polling ∧ (mk failed [] .collecting).caller = .collecting ∧
    (mk reading [.word 0x1000008AC] .polling).caller ≠ .idle ∧ (0x1000008AC#35).toNat / 2 ^ 32 = 1 ∧
    (0x5FFFFFFFF#35).toNat / 2 ^ 32 < 6 ∧ (0x000000000#35).toNat / 2 ^ 32 ≠ 1 := by decide
theorem witness_BlockingReadNeverReturnsNone :
    SafeState (mk doneP1 [] .collecting) ∧ blockingInv (mk doneP1 [] .collecting) ∧
    (∀ rest, (mk doneP1 [] .collecting).inputs ≠ .reset :: rest) ∧
    (nextOf (step (mk doneP1 [] .collecting))).map (·.caller) = some .idle :=
  ⟨done_collecting_inv, by unfold blockingInv; decide, (fun _ h => nomatch h), by decide⟩

end Sys2Proof.Tests
end

section
/-! The two forms of START (40_start_and_blocking_read.md): what each leaves, in the statuses that select it. -/

namespace Sys2Proof.Machine

/-- START's guard (R110) is on the two terminal statuses. -/
theorem isIdle_eq_true_iff (st : Status) : isIdle st = true ↔ st = .invalid ∨ st = .done := by
  cases st <;> simp [isIdle]

/-- An attempt is in flight in exactly the two other statuses. -/
theorem isIdle_eq_false_iff (st : Status) : isIdle st = false ↔ st = .wakingUp ∨ st = .reading := by
  cases st <;> simp [isIdle]

theorem exec_startAccept_of_idle {s : State} (now : Micros) (h : isIdle s.block.status = true) :
    exec (.startAccept now) s =
      .next (complete s (armAttempt now s.block) (some (.started true)) (wakeUpActions s.params)) :=
  if_pos h

theorem exec_startReject_of_not_idle {s : State} (now : Micros) (h : isIdle s.block.status = false) :
    exec (.startReject now) s = .next (complete s s.block (some (.started false)) []) :=
  if_neg (by simp [h])

/-- Settles O8: both terminal statuses pass START's guard, and the armed block and the wake-up list are then
R111's, field by field. -/
theorem startAcceptArmsTheAttempt : Obligations.StartAcceptArmsTheAttempt := by
  intro s now hterminal
  have hidle : isIdle s.block.status = true := (isIdle_eq_true_iff _).2 hterminal
  have harmed : armAttempt now s.block =
      { status := .wakingUp, result := s.block.result, data := #v[0, 0, 0, 0, 0], bitIndex := 7,
        byteIndex := 0, lastEdgeTimestamp := now, temperature := s.block.temperature,
        humidity := s.block.humidity } := rfl
  rw [exec_startAccept_of_idle now hidle, harmed]
  rfl

/-- Settles O9: both statuses of an attempt fail START's guard, and the rejecting form completes with the
block it found. -/
theorem startRejectWritesNothing : Obligations.StartRejectWritesNothing := by
  intro s now hattempt
  have hbusy : isIdle s.block.status = false := (isIdle_eq_false_iff _).2 hattempt
  exact exec_startReject_of_not_idle now hbusy

end Sys2Proof.Machine
end

section
/-! The EDGE state machine (41_edge_state_machine.md): the error symbols, the forms that receive no bit, and
the timestamp every form leaves. -/

namespace Sys2Proof.Machine

/-! The intervals outside a window (R141, R142). -/

theorem classify_wakingUp_of_outside {p : Params} {e : Micros} (h : e < p.ackMin ∨ p.ackMax < e) :
    classify p .wakingUp e = .ackBad := by
  have houtside : ¬ (p.ackMin ≤ e ∧ e ≤ p.ackMax) := by bv_omega
  rw [classify_wakingUp, if_neg houtside]

theorem classify_reading_of_outside {p : Params} {e : Micros} (h : e < p.bitMin ∨ p.bitMax < e) :
    classify p .reading e = .bitBad := by
  have houtside : ¬ (p.bitMin ≤ e ∧ e ≤ p.bitMax) := by bv_omega
  rw [classify_reading, if_neg houtside]

/-! The forms that receive no bit, each where its symbol is the one given. -/

theorem exec_edgeAckOk_of_symbol {s : State} {now : Micros}
    (h : classify s.params s.block.status (elapsed now s.block) = .ackOk) :
    exec (.edgeAckOk now) s = .next (complete s (setStatus .reading (stampEdge now s.block)) none []) :=
  edgeForm_of_next (effect := fun b => .next (setStatus .reading b)) h rfl

theorem exec_edgeAckErr_of_symbol {s : State} {now : Micros}
    (h : classify s.params s.block.status (elapsed now s.block) = .ackBad) :
    exec (.edgeAckErr now) s =
      .next (complete s (raiseError .wakeUpError (stampEdge now s.block)) none []) :=
  edgeForm_of_next (effect := fun b => .next (raiseError .wakeUpError b)) h rfl

theorem exec_edgeBitErr_of_symbol {s : State} {now : Micros}
    (h : classify s.params s.block.status (elapsed now s.block) = .bitBad) :
    exec (.edgeBitErr now) s =
      .next (complete s (raiseError .dataError (stampEdge now s.block)) none []) :=
  edgeForm_of_next (effect := fun b => .next (raiseError .dataError b)) h rfl

/-- Settles O10: an interval in the closed window gives the symbol of EDGE.ACK_OK. -/
theorem edgeAckOkStartsReading : Obligations.EdgeAckOkStartsReading := by
  intro s now hstatus hmin hmax
  have hsymbol : classify s.params s.block.status (elapsed now s.block) = .ackOk := by
    rw [hstatus, classify_wakingUp]
    exact if_pos ⟨hmin, hmax⟩
  exact exec_edgeAckOk_of_symbol hsymbol

/-- Settles O11: an interval outside the window gives the symbol of EDGE.ACK_ERR. -/
theorem edgeAckErrRaisesWakeUpError : Obligations.EdgeAckErrRaisesWakeUpError := by
  intro s now hstatus houtside
  have hsymbol : classify s.params s.block.status (elapsed now s.block) = .ackBad := by
    rw [hstatus]
    exact classify_wakingUp_of_outside houtside
  exact exec_edgeAckErr_of_symbol hsymbol

/-- Settles O16: the symbol of EDGE.BIT_ERR depends on the interval alone, so no cursor is excepted. -/
theorem edgeBitErrRaisesDataError : Obligations.EdgeBitErrRaisesDataError := by
  intro s now hstatus houtside
  have hsymbol : classify s.params s.block.status (elapsed now s.block) = .bitBad := by
    rw [hstatus]
    exact classify_reading_of_outside houtside
  exact exec_edgeBitErr_of_symbol hsymbol

/-! The common prefix (R121). -/

/-- The interval in numbers: a difference modulo 2^32. -/
theorem toNat_elapsed (now : Micros) (b : Block) :
    (elapsed now b).toNat = (now.toNat + 2 ^ 32 - b.lastEdgeTimestamp.toNat) % 2 ^ 32 := by
  have hlt := b.lastEdgeTimestamp.isLt
  rw [elapsed, BitVec.toNat_sub]
  congr 1
  omega

/-- Receiving a bit, the frame end included, keeps the timestamp the prefix wrote. -/
theorem receiveBit_lastEdgeTimestamp {bit : Bool} {b b' : Block} (h : receiveBit bit b = .next b') :
    b'.lastEdgeTimestamp = b.lastEdgeTimestamp := by
  obtain ⟨-, ⟨-, rfl⟩ | ⟨-, rfl⟩⟩ := receiveBit_next h
  · exact accumulate_lastEdgeTimestamp b bit
  · rw [frameEnd_lastEdgeTimestamp, accumulate_lastEdgeTimestamp]

/-- Every form of EDGE that completes leaves its own clock sample as the timestamp. -/
theorem exec_edge_lastEdgeTimestamp {i : Instr} {s t : State} (hedge : operationOfInstr i = .edge)
    (h : exec i s = .next t) : t.block.lastEdgeTimestamp = nowOfInstr i := by
  obtain ⟨hcaller, -, -⟩ | ⟨now, rfl, -, -⟩ | ⟨now, rfl, -, rfl⟩ | ⟨now, rfl, -, rfl⟩ |
    ⟨now, bit, b, hform, -, hbit, rfl⟩ | ⟨now, rfl, -, rfl⟩ | ⟨now, rfl, -, rfl⟩ := exec_next_cases h
  case inl => exact absurd hedge hcaller
  case inr.inl => cases hedge
  case inr.inr.inr.inr.inl =>
    have hnow : nowOfInstr i = now := by obtain ⟨-, rfl⟩ | ⟨-, rfl⟩ := hform <;> rfl
    rw [hnow]
    exact receiveBit_lastEdgeTimestamp hbit
  all_goals rfl

/-- Code 1 is EDGE's and no other operation's (R85). -/
theorem opCode_eq_one_iff (op : Operation) : opCode op = 1 ↔ op = .edge := by
  cases op with
  | edge => simp [opCode]
  | caller c => cases c <;> simp [opCode]

theorem encode_code_eq_one_iff (i : Instr) :
    (encode i).toNat / 2 ^ 32 = 1 ↔ operationOfInstr i = .edge := by
  rw [← opCode_eq_one_iff, ← toNat_opField, encode, opField_mkWord, ← BitVec.toNat_inj]
  rfl

theorem encode_mod_eq_now (i : Instr) : (encode i).toNat % 2 ^ 32 = (nowOfInstr i).toNat := by
  rw [← toNat_nowField, encode, nowField_mkWord]

/-- Settles O18: the subtraction of clock samples is modulo 2^32, and a word with code 1 is an EDGE's, whose
every form writes the word's clock sample. -/
theorem everyEdgeStampsItsClock : Obligations.EveryEdgeStampsItsClock := by
  refine ⟨toNat_elapsed, fun i s t hcode h => ?_⟩
  have hedge : operationOfInstr i = .edge := (encode_code_eq_one_iff i).1 hcode
  rw [encode_mod_eq_now, exec_edge_lastEdgeTimestamp hedge h]

end Sys2Proof.Machine
end

section
/-! The accumulator's cursor and its bit store (43_sensor_data_accumulator.md): both in numbers, on the frame
positions of R31. -/

namespace Sys2Proof.Machine

/-! The cursor (R152). -/

/-- The cursor advance on numbers; with `byteIndex` at most 4 the next byte's index does not wrap. -/
theorem toNat_cursorAdvance {b : Block} (h : b.byteIndex ≤ 4) :
    ((cursorAdvance b).bitIndex.toNat, (cursorAdvance b).byteIndex.toNat) =
      if b.bitIndex.toNat = 0 then (7, b.byteIndex.toNat + 1)
      else (b.bitIndex.toNat - 1, b.byteIndex.toNat) := by
  obtain ⟨hzero, hbit, hbyte⟩ | ⟨hpos, hbit, hbyte⟩ := cursorAdvance_cases b
  · have hnext : (b.byteIndex + 1).toNat = b.byteIndex.toNat + 1 := by bv_omega
    rw [hbit, hbyte, hnext, hzero]
    rfl
  · have hnonzero : b.bitIndex.toNat ≠ 0 := by bv_omega
    have hlower : (b.bitIndex - 1).toNat = b.bitIndex.toNat - 1 := by bv_omega
    rw [hbit, hbyte, hlower, if_neg hnonzero]

theorem position_cursorAdvance {b : Block} (h : b.byteIndex ≤ 4) :
    position (cursorAdvance b) = position b + 1 := by
  have hlt := b.bitIndex.isLt
  have hcursor := toNat_cursorAdvance h
  unfold position
  split at hcursor <;> rw [Prod.mk.injEq] at hcursor <;> omega

/-- Position 39 is bit 0 of the last byte. -/
theorem position_eq_39_iff {b : Block} : position b = 39 ↔ b.byteIndex = 4 ∧ b.bitIndex = 0 := by
  have hlt := b.bitIndex.isLt
  unfold position
  constructor
  · intro h
    constructor <;> bv_omega
  · rintro ⟨hbyte, hbit⟩
    rw [hbyte, hbit]
    rfl

/-- The advance that completes the frame is the one from position 39 (R155). -/
theorem frameComplete_cursorAdvance_iff {b : Block} (h : b.byteIndex ≤ 4) :
    frameComplete (cursorAdvance b) = true ↔ position b = 39 := by
  rw [frameComplete, beq_iff_eq, position_eq_39_iff]
  obtain ⟨hbit, -, hbyte⟩ | ⟨hbit, -, hbyte⟩ := cursorAdvance_cases b <;> rw [hbyte] <;> bv_omega

theorem cursorAdvance_frame (b : Block) :
    cursorAdvance b =
      { b with bitIndex := (cursorAdvance b).bitIndex, byteIndex := (cursorAdvance b).byteIndex } := by
  ext1 <;> simp

/-- Settles O21: the advance in numbers gives the order of the positions, and the one from (4, 0) leaves (5, 7). -/
theorem cursorAdvanceVisitsPositionsInOrder : Obligations.CursorAdvanceVisitsPositionsInOrder := by
  intro b hle
  refine ⟨toNat_cursorAdvance hle, position_cursorAdvance hle, fun hlast => ?_, cursorAdvance_frame b⟩
  obtain ⟨hbyte, hbit⟩ := position_eq_39_iff.1 hlast
  rw [cursorAdvance, if_pos hbit, hbyte]
  exact ⟨rfl, rfl⟩

/-! The bit store (R151, R153). -/

/-- `DataSetBit` at the byte and bit of frame position `n` sets that frame bit and no other. -/
theorem frameBit_dataSetBit (d : Data) {n : Nat} (hn : n < frameBits) (k : Nat) :
    frameBit (dataSetBit d (n / 8) (7 - n % 8)) k = (frameBit d k || decide (k = n)) := by
  have hbyte : n / 8 < frameBytes := by
    unfold frameBits at hn
    unfold frameBytes
    omega
  rw [frameBit, frameBit, dataSetBit, byteOf_setByte d hbyte]
  by_cases hsame : k / 8 = n / 8
  · have hbit : 7 - k % 8 = 7 - n % 8 ↔ k = n := by omega
    rw [if_pos hsame, getLsbD_or_bit _ _ (by omega), hsame, decide_eq_decide.2 hbit]
  · have hne : k ≠ n := fun h => hsame (by rw [h])
    rw [if_neg hsame, decide_eq_false hne, Bool.or_false]

theorem position_lt_frameBits {b : Block} (h : b.byteIndex ≤ 4) : position b < frameBits := by
  have hle : b.byteIndex.toNat ≤ 4 := h
  unfold position frameBits
  omega

/-- A `1` sets the frame bit at the cursor's position, a `0` leaves the bytes. -/
theorem frameBit_storeBit (bit : Bool) {b : Block} (h : b.byteIndex ≤ 4) (k : Nat) :
    frameBit (storeBit bit b).data k =
      if k = position b then bit || frameBit b.data k else frameBit b.data k := by
  cases bit with
  | false => simp [storeBit]
  | true =>
    have hstore : (storeBit true b).data = dataSetBit b.data (position b / 8) (7 - position b % 8) := by
      rw [position_div, position_mod]
      rfl
    rw [hstore, frameBit_dataSetBit _ (position_lt_frameBits h)]
    split <;> simp [*]

@[simp] theorem position_storeBit (bit : Bool) (b : Block) : position (storeBit bit b) = position b := by
  simp [position]

theorem accumulate_frame (bit : Bool) (b : Block) :
    accumulate bit b = { b with data := (accumulate bit b).data, bitIndex := (accumulate bit b).bitIndex,
                                byteIndex := (accumulate bit b).byteIndex } := by
  ext1 <;> simp

/-- Settles O22: the store keeps the cursor, so the advance is from the position the bit was written at. -/
theorem accumulateStoresTheFrameBit : Obligations.AccumulateStoresTheFrameBit := by
  intro bit b hle
  have hstored : (storeBit bit b).byteIndex ≤ 4 := by rwa [storeBit_byteIndex]
  refine ⟨fun k _ => ?_, ?_, ?_, accumulate_frame bit b⟩
  · rw [accumulate_data, frameBit_storeBit bit hle]
  · rw [accumulate, position_cursorAdvance hstored, position_storeBit]
  · rw [accumulate, frameComplete_cursorAdvance_iff hstored, position_storeBit]

end Sys2Proof.Machine
end

section
/-! The value decoder (44_checksum_validator_and_value_decode.md, section 2), in numbers. -/

namespace Sys2Proof.Machine

/-- Two bytes side by side, high byte first: no bit is lost (R169). -/
theorem toNat_byte_append (hi lo : Byte) : (hi ++ lo).toNat = hi.toNat * 256 + lo.toNat := by
  rw [BitVec.toNat_append, ← Nat.shiftLeft_add_eq_or_of_lt lo.isLt, Nat.shiftLeft_eq]

/-- Settles O25: the register is the two bytes side by side. -/
theorem humidityIsHighByteFirst : Obligations.HumidityIsHighByteFirst :=
  fun d => toNat_byte_append (byteOf d 0) (byteOf d 1)

/-! The temperature (R164, R165). -/

/-- The mask clears bit 7 only (R169). -/
theorem toNat_and_0x7F (v : Byte) : (v &&& 0x7F#8).toNat = v.toNat % 128 := by
  rw [BitVec.toNat_and]
  exact Nat.and_two_pow_sub_one_eq_mod v.toNat 7

theorem getLsbD_seven_iff (v : Byte) : v.getLsbD 7 = true ↔ 128 ≤ v.toNat := by
  change v.getLsbD (8 - 1) = true ↔ 2 ^ (8 - 1) ≤ v.toNat
  rw [← BitVec.msb_eq_getLsbD_last, BitVec.msb_eq_decide, decide_eq_true_iff]

theorem toNat_temperatureMagnitude (d : Data) :
    (temperatureMagnitude d).toNat = (byteOf d 2).toNat % 128 * 256 + (byteOf d 3).toNat := by
  rw [temperatureMagnitude, toNat_byte_append, toNat_and_0x7F]

theorem temperatureMagnitude_lt (d : Data) : (temperatureMagnitude d).toNat < 2 ^ 15 := by
  have hlow := (byteOf d 3).isLt
  rw [toNat_temperatureMagnitude]
  omega

/-- With its top bit clear the magnitude is the same number signed or unsigned. -/
theorem toInt_temperatureMagnitude (d : Data) :
    (temperatureMagnitude d).toInt = ((temperatureMagnitude d).toNat : Int) := by
  have hlt := temperatureMagnitude_lt d
  exact BitVec.toInt_eq_toNat_of_lt (by omega)

/-- No magnitude is the one word whose negation overflows (R165). -/
theorem temperatureMagnitude_ne_intMin (d : Data) : temperatureMagnitude d ≠ BitVec.intMin 16 := by
  intro h
  have hlt := temperatureMagnitude_lt d
  rw [h, BitVec.toNat_intMin] at hlt
  omega

/-- The two signs: the negated magnitude when the top bit of byte 2 is set, and the magnitude when it is clear. -/
theorem decodeTemperature_cases (d : Data) :
    (128 ≤ (byteOf d 2).toNat ∧ decodeTemperature d = -temperatureMagnitude d) ∨
    (¬ 128 ≤ (byteOf d 2).toNat ∧ decodeTemperature d = temperatureMagnitude d) := by
  rw [← getLsbD_seven_iff]
  by_cases hsign : (byteOf d 2).getLsbD 7 = true
  · exact .inl ⟨hsign, if_pos hsign⟩
  · exact .inr ⟨hsign, if_neg hsign⟩

theorem toInt_decodeTemperature (d : Data) :
    (decodeTemperature d).toInt =
      (if 128 ≤ (byteOf d 2).toNat then (-1 : Int) else 1) * ((temperatureMagnitude d).toNat : Int) := by
  obtain ⟨hsign, hdecode⟩ | ⟨hsign, hdecode⟩ := decodeTemperature_cases d
  · rw [hdecode, if_pos hsign, BitVec.toInt_neg_of_ne_intMin (temperatureMagnitude_ne_intMin d),
      toInt_temperatureMagnitude, neg_one_mul]
  · rw [hdecode, if_neg hsign, toInt_temperatureMagnitude, one_mul]

/-- The register 0x8000 would be the negation of itself, and no magnitude is it (R165). -/
theorem decodeTemperature_ne_intMin (d : Data) : decodeTemperature d ≠ BitVec.intMin 16 := by
  obtain ⟨-, hdecode⟩ | ⟨-, hdecode⟩ := decodeTemperature_cases d
  · rw [hdecode, ne_eq, BitVec.neg_eq_intMin]
    exact temperatureMagnitude_ne_intMin d
  · rw [hdecode]
    exact temperatureMagnitude_ne_intMin d

/-- Settles O26: the magnitude is at most 32767, so its negation in 16 bits is exact and is never -32768. -/
theorem temperatureIsSignAndMagnitude : Obligations.TemperatureIsSignAndMagnitude := by
  intro d
  refine ⟨?_, decodeTemperature_ne_intMin d⟩
  rw [toInt_decodeTemperature, toNat_temperatureMagnitude]

end Sys2Proof.Machine
end

section
/-! Selection and decoding (30_encoding.md sections 2 and 3): which intervals give which symbol, that the column
"selected by" of R88 names the form `decode` picks, and what follows for the round trips. -/

namespace Sys2Proof.Machine

/-! The symbols, one equivalence each (R140 to R143). -/

theorem classify_eq_ackOk_iff {p : Params} {st : Status} {e : Micros} :
    classify p st e = .ackOk ↔ st = .wakingUp ∧ p.ackMin ≤ e ∧ e ≤ p.ackMax := by
  refine ⟨fun h => ?_, fun ⟨hst, hwindow⟩ => by rw [hst, classify_wakingUp, if_pos hwindow]⟩
  have hst : st = .wakingUp := (classify_status h).1 (by simp)
  rw [hst, classify_wakingUp] at h
  exact ⟨hst, by simpa using h⟩

theorem classify_eq_ackBad_iff {p : Params} {st : Status} {e : Micros} :
    classify p st e = .ackBad ↔ st = .wakingUp ∧ (e < p.ackMin ∨ p.ackMax < e) := by
  refine ⟨fun h => ?_, fun ⟨hst, houtside⟩ => by rw [hst, classify_wakingUp_of_outside houtside]⟩
  have hst : st = .wakingUp := (classify_status h).1 (by simp)
  rw [hst, classify_wakingUp] at h
  have houtside : ¬ (p.ackMin ≤ e ∧ e ≤ p.ackMax) := by simpa using h
  exact ⟨hst, by bv_omega⟩

/-- The bit window ends above the threshold (R11), so an interval up to the threshold is in it. -/
theorem classify_eq_bit0_iff {p : Params} {st : Status} {e : Micros} (hwf : p.wf = true) :
    classify p st e = .bit0 ↔ st = .reading ∧ p.bitMin ≤ e ∧ e ≤ p.bitThreshold := by
  obtain ⟨-, -, hthreshold⟩ := (params_wf_iff p).1 hwf
  constructor
  · intro h
    have hst : st = .reading := (classify_status h).2.1 (by simp)
    rw [hst, classify_reading] at h
    split at h
    · split at h
      · cases h
      · exact ⟨hst, by bv_omega⟩
    · cases h
  · rintro ⟨rfl, hmin, hmax⟩
    rw [classify_reading, if_pos (by bv_omega), if_neg (by bv_omega)]

/-- The bit window begins at or below the threshold (R11), so an interval above the threshold is in it. -/
theorem classify_eq_bit1_iff {p : Params} {st : Status} {e : Micros} (hwf : p.wf = true) :
    classify p st e = .bit1 ↔ st = .reading ∧ p.bitThreshold < e ∧ e ≤ p.bitMax := by
  obtain ⟨-, hthreshold, -⟩ := (params_wf_iff p).1 hwf
  constructor
  · intro h
    have hst : st = .reading := (classify_status h).2.1 (by simp)
    rw [hst, classify_reading] at h
    split at h
    · split at h
      · exact ⟨hst, by bv_omega⟩
      · cases h
    · cases h
  · rintro ⟨rfl, hmin, hmax⟩
    rw [classify_reading, if_pos (by bv_omega), if_pos hmin]

theorem classify_eq_bitBad_iff {p : Params} {st : Status} {e : Micros} :
    classify p st e = .bitBad ↔ st = .reading ∧ (e < p.bitMin ∨ p.bitMax < e) := by
  refine ⟨fun h => ?_, fun ⟨hst, houtside⟩ => by rw [hst, classify_reading_of_outside houtside]⟩
  have hst : st = .reading := (classify_status h).2.1 (by simp)
  rw [hst, classify_reading] at h
  split at h
  · split at h <;> cases h
  · exact ⟨hst, by bv_omega⟩

theorem classify_eq_noSymbol_iff {p : Params} {st : Status} {e : Micros} :
    classify p st e = .noSymbol ↔ st = .done ∨ st = .invalid := by
  refine ⟨fun h => (classify_status h).2.2 rfl, fun h => classify_idle p e ?_⟩
  exact (isIdle_eq_true_iff st).2 h.symm

/-- Settles O19: the equivalences at the given status, read as numbers. -/
theorem symbolsPartitionTheIntervals : Obligations.SymbolsPartitionTheIntervals := by
  intro p e hwf
  simp only [classify_eq_ackOk_iff, classify_eq_ackBad_iff, classify_eq_bit0_iff hwf, classify_eq_bit1_iff hwf,
    classify_eq_bitBad_iff, classify_eq_noSymbol_iff, BitVec.le_def, BitVec.lt_def]
  simp

/-! Selection is what `decode` does (R88, R89). -/

theorem selects_edgeFormOf_iff {s : State} (hwf : s.params.wf = true) (sym : Symbol) (now : Micros) :
    selects s (edgeFormOf sym now) ↔ classify s.params s.block.status (elapsed now s.block) = sym := by
  cases sym with
  | ackOk => exact classify_eq_ackOk_iff.symm
  | ackBad => exact classify_eq_ackBad_iff.symm
  | bit0 => exact (classify_eq_bit0_iff hwf).symm
  | bit1 => exact (classify_eq_bit1_iff hwf).symm
  | bitBad => exact classify_eq_bitBad_iff.symm
  | noSymbol => exact classify_eq_noSymbol_iff.symm

/-- Every form is an EDGE form of a symbol, one of the two forms of START, or an accessor's only form. -/
theorem instr_cases (i : Instr) :
    (∃ sym now, i = edgeFormOf sym now) ∨ (∃ now, i = .startAccept now ∨ i = .startReject now) ∨
      ∃ op now, op ≠ .start ∧ ∀ s, i = formOf s (.caller op) now := by
  cases i with
  | edgeAckOk now => exact .inl ⟨.ackOk, now, rfl⟩
  | edgeAckErr now => exact .inl ⟨.ackBad, now, rfl⟩
  | edgeBit0 now => exact .inl ⟨.bit0, now, rfl⟩
  | edgeBit1 now => exact .inl ⟨.bit1, now, rfl⟩
  | edgeBitErr now => exact .inl ⟨.bitBad, now, rfl⟩
  | edgeIgnore now => exact .inl ⟨.noSymbol, now, rfl⟩
  | startAccept now => exact .inr (.inl ⟨now, .inl rfl⟩)
  | startReject now => exact .inr (.inl ⟨now, .inr rfl⟩)
  | state now => exact .inr (.inr ⟨.state, now, by simp, fun _ => rfl⟩)
  | lastResult now => exact .inr (.inr ⟨.lastResult, now, by simp, fun _ => rfl⟩)
  | getTemp now => exact .inr (.inr ⟨.getTemp, now, by simp, fun _ => rfl⟩)
  | getHumidity now => exact .inr (.inr ⟨.getHumidity, now, by simp, fun _ => rfl⟩)

@[simp] theorem operationOfInstr_edgeFormOf (sym : Symbol) (now : Micros) :
    operationOfInstr (edgeFormOf sym now) = .edge := by
  cases sym <;> rfl

@[simp] theorem nowOfInstr_edgeFormOf (sym : Symbol) (now : Micros) :
    nowOfInstr (edgeFormOf sym now) = now := by
  cases sym <;> rfl

theorem edgeFormOf_injective {sym sym' : Symbol} {now : Micros} (h : edgeFormOf sym now = edgeFormOf sym' now) :
    sym = sym' := by
  revert h
  cases sym <;> cases sym' <;> simp [edgeFormOf]

/-- The column of R88 selects a form exactly where `formOf` gives it. -/
theorem selects_iff_formOf {s : State} (hwf : s.params.wf = true) (i : Instr) :
    selects s i ↔ formOf s (operationOfInstr i) (nowOfInstr i) = i := by
  obtain ⟨sym, now, rfl⟩ | ⟨now, rfl | rfl⟩ | ⟨op, now, hop, hform⟩ := instr_cases i
  · rw [selects_edgeFormOf_iff hwf, operationOfInstr_edgeFormOf, nowOfInstr_edgeFormOf]
    exact ⟨fun h => congrArg (edgeFormOf · now) h, fun h => edgeFormOf_injective h⟩
  · rw [selects, ← isIdle_eq_true_iff]
    cases hidle : isIdle s.block.status <;> simp [operationOfInstr, nowOfInstr, formOf, startFormOf, hidle]
  · rw [selects, ← isIdle_eq_false_iff]
    cases hidle : isIdle s.block.status <;> simp [operationOfInstr, nowOfInstr, formOf, startFormOf, hidle]
  · rw [hform s, operationOfInstr_formOf, nowOfInstr_formOf]
    cases op with
    | start => exact absurd rfl hop
    | _ => exact iff_of_true trivial rfl

theorem encode_eq_wordOf (i : Instr) : encode i = wordOf (operationOfInstr i) (nowOfInstr i) := rfl

theorem decode_encode {s : State} {i : Instr} (hwf : s.params.wf = true) (h : selects s i) :
    decode s (encode i) = .ok i := by
  rw [encode_eq_wordOf, decode_wordOf, (selects_iff_formOf hwf i).1 h]

theorem encode_of_decode {s : State} {w : EventWord} {i : Instr} (h : decode s w = .ok i) : encode i = w := by
  obtain ⟨op, -, rfl, hw⟩ := decode_ok h
  rw [encode_eq_wordOf, operationOfInstr_formOf, nowOfInstr_formOf, ← hw]

/-- Settles O2: the form's word decodes to the form the state gives its operation, and a selected form is that
one. -/
theorem decodeOfEncodeIsTheForm : Obligations.DecodeOfEncodeIsTheForm :=
  fun _ _ hwf hselected => decode_encode hwf hselected

/-- Settles O3: the decoded form carries the word's two fields, which are all its bits. -/
theorem encodeOfDecodeIsTheWord : Obligations.EncodeOfDecodeIsTheWord :=
  fun _ _ _ h => encode_of_decode h

/-- A code below 6 names an operation (R85, R93). -/
theorem operationOf_of_code_lt {w : EventWord} (h : w.toNat / 2 ^ 32 < 6) :
    ∃ op, operationOf (opField w) = some op := by
  rw [← Option.ne_none_iff_exists', ne_eq, operationOf_eq_none_iff, toNat_opField]
  omega

/-- A word of a named operation decodes to the form the state gives it. -/
theorem decode_of_operationOf {w : EventWord} {op : Operation} (s : State)
    (h : operationOf (opField w) = some op) : decode s w = .ok (formOf s op (nowField w)) := by
  rw [decode, h]

/-- Settles O4: the decoded form is selected, and any selected form of the same word is what the word decodes
to. -/
theorem decodeSelectsExactlyOneForm : Obligations.DecodeSelectsExactlyOneForm := by
  intro s w hwf hcode
  obtain ⟨op, hop⟩ := operationOf_of_code_lt hcode
  have hdecode := decode_of_operationOf s hop
  refine ⟨_, hdecode, ?_, fun j hj hword => ?_⟩
  · rw [selects_iff_formOf hwf, operationOfInstr_formOf, nowOfInstr_formOf]
  · have hj' : decode s w = .ok j := hword ▸ decode_encode hwf hj
    exact Except.ok.inj (hj'.symm.trans hdecode)

/-- Settles O1: each word's fields are an operation's code and a clock sample, and the reset state is terminal. -/
theorem decodeWrittenOutWords : Obligations.DecodeWrittenOutWords := by
  exact ⟨rfl, rfl, rfl, rfl, rfl, rfl, rfl, rfl, rfl⟩

end Sys2Proof.Machine
end

section
/-! Runs of bits in the accumulator and the checksum (43_sensor_data_accumulator.md, 44 section 1): what a list of
received bits leaves, on the frame positions of R31. -/

namespace Sys2Proof.Machine

/-! One bit. -/

/-- Settles O20: the write changes the addressed byte only, and there the one bit. -/
theorem dataSetBitSetsOneBit : Obligations.DataSetBitSetsOneBit := by
  intro d i k hi hk j _ m _
  have hbyte : i < frameBytes := Nat.lt_succ_of_le hi
  rw [dataSetBit, byteOf_setByte d hbyte]
  by_cases hji : j = i
  · rw [if_pos hji, getLsbD_or_bit _ _ (Nat.lt_succ_of_le hk), hji]
    simp [beq_eq_decide]
  · rw [if_neg hji]
    simp [hji]

/-- The cursor is inside the five bytes exactly before the 40th bit. -/
theorem byteIndex_le_four_iff {b : Block} : b.byteIndex ≤ 4 ↔ position b < frameBits := by
  refine ⟨position_lt_frameBits, fun h => ?_⟩
  unfold position frameBits at h
  bv_omega

theorem position_accumulate (bit : Bool) {b : Block} (h : b.byteIndex ≤ 4) :
    position (accumulate bit b) = position b + 1 := by
  have hstored : (storeBit bit b).byteIndex ≤ 4 := by rwa [storeBit_byteIndex]
  rw [accumulate, position_cursorAdvance hstored, position_storeBit]

theorem frameBit_accumulate (bit : Bool) {b : Block} (h : b.byteIndex ≤ 4) (k : Nat) :
    frameBit (accumulate bit b).data k =
      if k = position b then bit || frameBit b.data k else frameBit b.data k := by
  rw [accumulate_data, frameBit_storeBit bit h]

/-! A list of bits. -/

/-- The block after receiving the bits in order, without the frame end (R153). -/
def accumulateAll (bits : List Bool) (b : Block) : Block := bits.foldl (fun c bit => accumulate bit c) b

@[simp] theorem accumulateAll_nil (b : Block) : accumulateAll [] b = b := rfl

@[simp] theorem accumulateAll_cons (bit : Bool) (bits : List Bool) (b : Block) :
    accumulateAll (bit :: bits) b = accumulateAll bits (accumulate bit b) := rfl

theorem accumulateAll_frame (bits : List Bool) (b : Block) :
    accumulateAll bits b = { b with data := (accumulateAll bits b).data
                                    bitIndex := (accumulateAll bits b).bitIndex
                                    byteIndex := (accumulateAll bits b).byteIndex } := by
  induction bits generalizing b with
  | nil => rfl
  | cons bit bits ih => rw [accumulateAll_cons, ih (accumulate bit b)]; ext1 <;> simp

theorem position_accumulateAll {bits : List Bool} {b : Block} (h : position b + bits.length ≤ frameBits) :
    position (accumulateAll bits b) = position b + bits.length := by
  induction bits generalizing b with
  | nil => rfl
  | cons bit bits ih =>
    rw [List.length_cons] at h ⊢
    have hstep := position_accumulate bit (b := b) (byteIndex_le_four_iff.2 (by omega))
    rw [accumulateAll_cons, ih (by omega), hstep]
    omega

/-- Bit `n` of the list is added to frame position `position b + n`; every other frame bit is as before. -/
theorem frameBit_accumulateAll {bits : List Bool} {b : Block} (h : position b + bits.length ≤ frameBits)
    (k : Nat) :
    frameBit (accumulateAll bits b).data k =
      (frameBit b.data k || decide (position b ≤ k) && bits.getD (k - position b) false) := by
  induction bits generalizing b with
  | nil => simp
  | cons bit bits ih =>
    rw [List.length_cons] at h
    have hinside : b.byteIndex ≤ 4 := byteIndex_le_four_iff.2 (by omega)
    have hstep := position_accumulate bit hinside
    rw [accumulateAll_cons, ih (by omega), frameBit_accumulate bit hinside, hstep]
    obtain hbefore | rfl | hafter := Nat.lt_trichotomy k (position b)
    · have h0 : ¬ position b ≤ k := by omega
      have h1 : ¬ position b + 1 ≤ k := by omega
      simp [h0, h1, hbefore.ne]
    · simp [Bool.or_comm]
    · have hle : position b ≤ k := by omega
      have hshift : k - position b = (k - (position b + 1)) + 1 := by omega
      rw [if_neg hafter.ne', hshift, List.getD_cons_succ]
      simp [hle, Nat.succ_le_of_lt hafter]

/-! Bytes and frame bits (R51, R81). -/

theorem getLsbD_byteOf (d : Data) (j : Nat) {m : Nat} (hm : m < 8) :
    (byteOf d j).getLsbD m = frameBit d (8 * j + (7 - m)) := by
  have hbyte : (8 * j + (7 - m)) / 8 = j := by omega
  have hbit : 7 - (8 * j + (7 - m)) % 8 = m := by omega
  rw [frameBit, hbyte, hbit]

/-- A byte is the number its bits spell. -/
theorem toNat_byte (v : Byte) :
    v.toNat = (v.getLsbD 7).toNat * 128 + (v.getLsbD 6).toNat * 64 + (v.getLsbD 5).toNat * 32 +
      (v.getLsbD 4).toNat * 16 + (v.getLsbD 3).toNat * 8 + (v.getLsbD 2).toNat * 4 +
      (v.getLsbD 1).toNat * 2 + (v.getLsbD 0).toNat := by
  revert v
  decide

theorem position_of_bitIndex_seven {b : Block} (h : b.bitIndex = 7) : position b = 8 * b.byteIndex.toNat := by
  simp [position, h]

/-- Eight bits on move the cursor to the start of the next byte. -/
theorem cursor_of_position_add_eight {b c : Block} (hbyte : b.byteIndex ≤ 4)
    (h : position c = 8 * b.byteIndex.toNat + 8) : c.byteIndex = b.byteIndex + 1 ∧ c.bitIndex = 7 := by
  have hlt := c.bitIndex.isLt
  unfold position at h
  constructor <;> bv_omega

section
variable {bits : List Bool} {b : Block} (hbyte : b.byteIndex ≤ 4) (hbit : b.bitIndex = 7) (hlen : bits.length = 8)
include hbyte hbit hlen

theorem position_add_byte_le : position b + bits.length ≤ frameBits := by
  have hle : b.byteIndex.toNat ≤ 4 := hbyte
  rw [position_of_bitIndex_seven hbit, hlen]
  unfold frameBits
  omega

theorem cursor_accumulateAll_byte :
    (accumulateAll bits b).byteIndex = b.byteIndex + 1 ∧ (accumulateAll bits b).bitIndex = 7 := by
  refine cursor_of_position_add_eight hbyte ?_
  rw [position_accumulateAll (position_add_byte_le hbyte hbit hlen), position_of_bitIndex_seven hbit, hlen]

/-- The bits of the cursor's byte are the received ones, the first in bit 7. -/
theorem getLsbD_accumulateAll_byte (hzero : byteOf b.data b.byteIndex.toNat = 0) {m : Nat} (hm : m < 8) :
    (byteOf (accumulateAll bits b).data b.byteIndex.toNat).getLsbD m = bits.getD (7 - m) false := by
  rw [getLsbD_byteOf _ _ hm, frameBit_accumulateAll (position_add_byte_le hbyte hbit hlen),
    ← getLsbD_byteOf _ _ hm, hzero, position_of_bitIndex_seven hbit]
  simp

theorem byteOf_accumulateAll_other_byte {j : Nat} (hj : j ≠ b.byteIndex.toNat) :
    byteOf (accumulateAll bits b).data j = byteOf b.data j := by
  refine BitVec.eq_of_getLsbD_eq fun m hm => ?_
  rw [getLsbD_byteOf _ _ hm, getLsbD_byteOf _ _ hm,
    frameBit_accumulateAll (position_add_byte_le hbyte hbit hlen), position_of_bitIndex_seven hbit]
  by_cases hbefore : j < b.byteIndex.toNat
  · have hnot : ¬ 8 * b.byteIndex.toNat ≤ 8 * j + (7 - m) := by omega
    simp [hnot]
  · have hpast : bits.length ≤ 8 * j + (7 - m) - 8 * b.byteIndex.toNat := by omega
    rw [List.getD_eq_default _ _ hpast, Bool.and_false, Bool.or_false]

end

/-- Settles O23: the eight bits fill the eight frame positions of the cursor's byte, which were zero, and no
position of another byte. -/
theorem eightBitsSpellAByte : Obligations.EightBitsSpellAByte := by
  intro b b7 b6 b5 b4 b3 b2 b1 b0 hbyte hbit hzero b'
  have hlen : [b7, b6, b5, b4, b3, b2, b1, b0].length = 8 := rfl
  obtain ⟨hnextByte, hnextBit⟩ := cursor_accumulateAll_byte hbyte hbit hlen
  have hspelled : ∀ m < 8, (byteOf b'.data b.byteIndex.toNat).getLsbD m =
      [b7, b6, b5, b4, b3, b2, b1, b0].getD (7 - m) false :=
    fun m hm => getLsbD_accumulateAll_byte hbyte hbit hlen hzero hm
  refine ⟨?_, hnextByte, hnextBit, fun j _ hj => byteOf_accumulateAll_other_byte hbyte hbit hlen hj⟩
  rw [toNat_byte, hspelled 7 (by decide), hspelled 6 (by decide), hspelled 5 (by decide), hspelled 4 (by decide),
    hspelled 3 (by decide), hspelled 2 (by decide), hspelled 1 (by decide), hspelled 0 (by decide)]
  rfl

/-! The checksum (R161, R162). -/

theorem toNat_sum8 (d : Data) :
    (sum8 d).toNat =
      ((byteOf d 0).toNat + (byteOf d 1).toNat + (byteOf d 2).toNat + (byteOf d 3).toNat) % 256 := by
  simp [sum8]

theorem checksumOk_iff (d : Data) : checksumOk d = true ↔ byteOf d 4 = sum8 d := by
  rw [checksumOk, beq_iff_eq, eq_comm]

theorem checksumOk_iff_toNat (d : Data) :
    checksumOk d = true ↔
      (byteOf d 4).toNat =
        ((byteOf d 0).toNat + (byteOf d 1).toNat + (byteOf d 2).toNat + (byteOf d 3).toNat) % 256 := by
  rw [checksumOk_iff, ← toNat_sum8, BitVec.toNat_inj]

/-- The sum does not read the fifth byte. -/
theorem sum8_setByte_four (d : Data) (v : Byte) : sum8 (setByte d 4 v) = sum8 d := by
  simp [sum8, byteOf_setByte]

/-- Settles O24: the 8-bit sum is the sum modulo 256, and the byte it is compared with is the one it does not
read. -/
theorem checksumIsTheSumModulo256 : Obligations.ChecksumIsTheSumModulo256 := by
  refine fun d => ⟨toNat_sum8 d, checksumOk_iff_toNat d, fun v => ?_⟩
  have hfifth : byteOf (setByte d 4 v) 4 = v := by simp [byteOf_setByte]
  rw [checksumOk_iff, sum8_setByte_four, hfifth]

end Sys2Proof.Machine
end

section
/-! The data bits of an attempt (41_edge_state_machine.md R125, R126, R128): what receiving a bit leaves, before
the 40th position and at it. -/

namespace Sys2Proof.Machine

open Host

theorem frameEnd_of_match {b : Block} (h : checksumOk b.data = true) : frameEnd b = publishFrame b := if_pos h

theorem frameEnd_of_mismatch {b : Block} (h : ¬ checksumOk b.data = true) :
    frameEnd b = raiseError .checksumMismatch b := if_neg h

theorem frameComplete_accumulate_iff (bit : Bool) {b : Block} (h : b.byteIndex ≤ 4) :
    frameComplete (accumulate bit b) = true ↔ position b = 39 := by
  have hstored : (storeBit bit b).byteIndex ≤ 4 := by rwa [storeBit_byteIndex]
  rw [accumulate, frameComplete_cursorAdvance_iff hstored, position_storeBit]

theorem receiveBit_before_last (bit : Bool) {b : Block} (h : position b < 39) :
    receiveBit bit b = .next (accumulate bit b) := by
  have hinside : b.byteIndex ≤ 4 := byteIndex_le_four_iff.2 (Nat.lt_succ_of_lt h)
  have hincomplete : ¬ frameComplete (accumulate bit b) = true := by
    rw [frameComplete_accumulate_iff bit hinside]
    omega
  rw [receiveBit_of_le bit hinside, if_neg hincomplete]

theorem receiveBit_at_last (bit : Bool) {b : Block} (h : position b = 39) :
    receiveBit bit b = .next (frameEnd (accumulate bit b)) := by
  have hinside : b.byteIndex ≤ 4 := byteIndex_le_four_iff.2 (by rw [h]; decide)
  rw [receiveBit_of_le bit hinside, if_pos ((frameComplete_accumulate_iff bit hinside).2 h)]

/-- The three ways receiving a bit goes on: before the last position, or at it with a matching checksum, or at
it without one. -/
theorem receiveBit_outcomes {bit : Bool} {b b' : Block} (h : receiveBit bit b = .next b') :
    (position b < 39 ∧ b' = accumulate bit b) ∨
    (position b = 39 ∧ checksumOk (accumulate bit b).data = true ∧ b' = publishFrame (accumulate bit b)) ∨
    (position b = 39 ∧ b' = raiseError .checksumMismatch (accumulate bit b)) := by
  obtain ⟨hinside, -⟩ := receiveBit_next h
  have hposition : position b < frameBits := position_lt_frameBits hinside
  obtain hbefore | hlast : position b < 39 ∨ position b = 39 := by
    unfold frameBits at hposition
    omega
  · rw [receiveBit_before_last bit hbefore] at h
    exact .inl ⟨hbefore, (Outcome.next.inj h).symm⟩
  · rw [receiveBit_at_last bit hlast] at h
    obtain ⟨hmatch, hend⟩ | ⟨-, hend⟩ := frameEnd_cases (accumulate bit b)
    · exact .inr (.inl ⟨hlast, hmatch, by rw [← hend]; exact (Outcome.next.inj h).symm⟩)
    · exact .inr (.inr ⟨hlast, by rw [← hend]; exact (Outcome.next.inj h).symm⟩)

/-- Bit 0 of byte 4 is the bit the 40th write sets. -/
theorem storeBit_data_at_last (bit : Bool) {b : Block} (h : position b = 39) :
    (storeBit bit b).data = lastBitStored bit b.data := by
  obtain ⟨hbyte, hbit⟩ := position_eq_39_iff.1 h
  cases bit with
  | false =>
    refine data_ext fun i hi => ?_
    rw [byteOf_eq_getElem _ hi, byteOf_eq_getElem _ hi]
    match i, hi with
    | 0, _ | 1, _ | 2, _ | 3, _ | 4, _ => rfl
  | true =>
    have hstore : (storeBit true b).data = setByte b.data 4 (byteOf b.data 4 ||| 1#8) := by
      simp only [storeBit, if_true, hbyte, hbit]
      rfl
    rw [hstore]
    refine data_ext fun i hi => ?_
    rw [byteOf_setByte _ (by decide), byteOf_eq_getElem (lastBitStored true b.data) hi]
    match i, hi with
    | 0, h | 1, h | 2, h | 3, h | 4, h => simp [lastBitStored, byteOf_eq_getElem _ h]

/-- What the 40th bit leaves before the frame end. -/
theorem accumulate_at_last (bit : Bool) {b : Block} (h : position b = 39) :
    accumulate bit b = { b with data := lastBitStored bit b.data, bitIndex := 7, byteIndex := 5 } := by
  obtain ⟨hbyte, hbit⟩ := position_eq_39_iff.1 h
  have hcursor : cursorAdvance (storeBit bit b) = { storeBit bit b with bitIndex := 7, byteIndex := 5 } := by
    rw [cursorAdvance, storeBit_bitIndex, if_pos hbit, storeBit_byteIndex, hbyte]
    rfl
  rw [accumulate, hcursor, ← storeBit_data_at_last bit h]
  ext1 <;> simp

/-! The forms of a data bit. -/

@[simp] theorem position_stampEdge (now : Micros) (b : Block) : position (stampEdge now b) = position b := rfl

/-- The symbol of a data bit. -/
def bitSymbol (bit : Bool) : Symbol := if bit then .bit1 else .bit0

theorem exec_edgeFormOf_bitSymbol (bit : Bool) (now : Micros) (s : State) :
    exec (edgeFormOf (bitSymbol bit) now) s = edgeForm (bitSymbol bit) (receiveBit bit) now s := by
  cases bit <;> rfl

/-- The windows of R125 and R126 give the bit's symbol. -/
theorem bitFormAndWindow_symbol {s : State} {now : Micros} {bit : Bool} {i : Instr} (hwf : s.params.wf = true)
    (hreading : s.block.status = .reading) (h : bitFormAndWindow s now bit i) :
    i = edgeFormOf (bitSymbol bit) now ∧
      classify s.params s.block.status (elapsed now s.block) = bitSymbol bit := by
  obtain ⟨rfl, rfl, hmin, hmax⟩ | ⟨rfl, rfl, hmin, hmax⟩ := h
  · exact ⟨rfl, (classify_eq_bit0_iff hwf).2 ⟨hreading, hmin, hmax⟩⟩
  · exact ⟨rfl, (classify_eq_bit1_iff hwf).2 ⟨hreading, hmin, hmax⟩⟩

theorem exec_dataBit {s : State} {now : Micros} {bit : Bool} {i : Instr} {b : Block} (hwf : s.params.wf = true)
    (hreading : s.block.status = .reading) (hform : bitFormAndWindow s now bit i)
    (hb : receiveBit bit (stampEdge now s.block) = .next b) : exec i s = .next (complete s b none []) := by
  obtain ⟨rfl, hsymbol⟩ := bitFormAndWindow_symbol hwf hreading hform
  rw [exec_edgeFormOf_bitSymbol]
  exact edgeForm_of_next hsymbol hb

/-- A data bit before the 40th position, for both bits. -/
theorem exec_dataBit_before_last {s : State} {now : Micros} {bit : Bool} {i : Instr} (hwf : s.params.wf = true)
    (hreading : s.block.status = .reading) (hposition : position s.block < 39)
    (hform : bitFormAndWindow s now bit i) :
    exec i s = .next (complete s (accumulate bit (stampEdge now s.block)) none []) :=
  exec_dataBit hwf hreading hform (receiveBit_before_last bit hposition)

/-- The 40th bit, for both bits. -/
theorem exec_dataBit_at_last {s : State} {now : Micros} {bit : Bool} {i : Instr} (hwf : s.params.wf = true)
    (hreading : s.block.status = .reading) (hposition : position s.block = 39)
    (hform : bitFormAndWindow s now bit i) :
    exec i s = .next (complete s (frameEnd { s.block with
      data := lastBitStored bit s.block.data, bitIndex := 7, byteIndex := 5, lastEdgeTimestamp := now }) none []) := by
  rw [exec_dataBit hwf hreading hform (receiveBit_at_last bit hposition),
    accumulate_at_last bit (b := stampEdge now s.block) hposition]
  rfl

/-- A `0` is received without a write to the bytes. -/
theorem accumulate_false_frame (b : Block) :
    accumulate false b = { b with bitIndex := (accumulate false b).bitIndex
                                  byteIndex := (accumulate false b).byteIndex } :=
  cursorAdvance_frame b

/-- Settles O12: a zero bit is not written, and the cursor is before the last position. -/
theorem edgeBit0MovesTheCursor : Obligations.EdgeBit0MovesTheCursor := by
  intro s now hwf hreading hposition hmin hmax
  have hinside : (stampEdge now s.block).byteIndex ≤ 4 :=
    byteIndex_le_four_iff.2 (Nat.lt_succ_of_lt hposition)
  refine ⟨_, exec_dataBit_before_last hwf hreading hposition (.inl ⟨rfl, rfl, hmin, hmax⟩),
    position_accumulate false hinside, ?_⟩
  rw [accumulate_false_frame]
  rfl

/-- Settles O13: a one bit sets the frame bit at the cursor's position, which is before the last. -/
theorem edgeBit1SetsTheBitAndMovesTheCursor : Obligations.EdgeBit1SetsTheBitAndMovesTheCursor := by
  intro s now hwf hreading hposition hmin hmax
  have hinside : (stampEdge now s.block).byteIndex ≤ 4 :=
    byteIndex_le_four_iff.2 (Nat.lt_succ_of_lt hposition)
  refine ⟨_, exec_dataBit_before_last hwf hreading hposition (.inr ⟨rfl, rfl, hmin, hmax⟩),
    position_accumulate true hinside, fun k _ => ?_, ?_⟩
  · rw [complete_block, frameBit_accumulate true hinside]
    by_cases hk : k = position s.block <;> simp [hk]
  · rw [accumulate_frame]
    rfl

/-! The frame end on the bytes as they stand in the vector. -/

theorem checksumOk_iff_getElem (d : Data) : checksumOk d = true ↔ d[0] + d[1] + d[2] + d[3] = d[4] := by
  rw [checksumOk, beq_iff_eq]
  rfl

/-- With bit 7 clear the mask of R164 changes nothing. -/
theorem and_0x7F_of_bit_seven_clear {v : Byte} (h : v.getLsbD 7 = false) : v &&& 0x7F#8 = v := by
  have hlt : ¬ 128 ≤ v.toNat := by rw [← getLsbD_seven_iff, h]; simp
  apply BitVec.eq_of_toNat_eq
  rw [toNat_and_0x7F]
  omega

theorem decodeTemperature_getElem (d : Data) :
    decodeTemperature d = if d[2].getLsbD 7 then -((d[2] &&& 0x7F#8) ++ d[3]) else d[2] ++ d[3] := by
  change (if d[2].getLsbD 7 then -((d[2] &&& 0x7F#8) ++ d[3]) else (d[2] &&& 0x7F#8) ++ d[3]) = _
  cases hsign : d[2].getLsbD 7 with
  | true => rfl
  | false => rw [and_0x7F_of_bit_seven_clear hsign]

/-- Settles O14: the bytes with the last bit stored pass the checksum, so the frame end publishes them. -/
theorem fortiethBitWithMatchPublishesTheFrame : Obligations.FortiethBitWithMatchPublishesTheFrame := by
  intro s now bit i hwf hreading hposition hform d hmatch
  rw [exec_dataBit_at_last hwf hreading hposition hform,
    frameEnd_of_match ((checksumOk_iff_getElem d).2 hmatch), ← decodeTemperature_getElem]
  rfl

/-- Settles O15: the bytes with the last bit stored fail the checksum, so the frame end raises the error. -/
theorem fortiethBitWithoutMatchRaisesChecksumMismatch :
    Obligations.FortiethBitWithoutMatchRaisesChecksumMismatch := by
  intro s now bit i hwf hreading hposition hform d hmismatch
  rw [exec_dataBit_at_last hwf hreading hposition hform,
    frameEnd_of_mismatch (mt (checksumOk_iff_getElem d).1 hmismatch)]
  rfl

end Sys2Proof.Machine
end

section
/-! The operations (30_encoding.md R88): what each one leaves, as a function of the state, and what the forms
may write. -/

namespace Sys2Proof.Machine

open Host

/-! The EDGE forms through their symbol. -/

/-- The own effect of the EDGE form a symbol selects (R122). -/
def edgeEffect : Symbol → Block → Outcome Block Fault Refusal
  | .ackOk, b => .next (setStatus .reading b)
  | .ackBad, b => .next (raiseError .wakeUpError b)
  | .bit0, b => receiveBit false b
  | .bit1, b => receiveBit true b
  | .bitBad, b => .next (raiseError .dataError b)
  | .noSymbol, b => .next b

theorem exec_edgeFormOf (sym : Symbol) (now : Micros) (s : State) :
    exec (edgeFormOf sym now) s = edgeForm sym (edgeEffect sym) now s := by
  cases sym <;> rfl

/-- The block an EDGE leaves when no bit is written outside the five bytes (R121 to R129). -/
def edgeBlock (p : Params) (now : Micros) (b : Block) : Block :=
  match edgeEffect (classify p b.status (elapsed now b)) (stampEdge now b) with
  | .next b' => b'
  | .fault _ => stampEdge now b
  | .refused _ => stampEdge now b

/-- An attempt that is reading has its cursor inside the five bytes (R36), the precondition of R153. -/
def cursorFits (b : Block) : Prop := b.status = .reading → b.byteIndex ≤ 4

theorem SafeState.cursorFits {s : State} (h : SafeState s) : cursorFits s.block := by
  obtain ⟨-, ⟨-, -, hreading, -⟩, -⟩ := h
  exact hreading

theorem cursorFits_of_not_reading {b : Block} (h : b.status ≠ .reading) : cursorFits b :=
  fun hreading => absurd hreading h

theorem cursorFits_of_idle {b : Block} (h : isIdle b.status = true) : cursorFits b :=
  cursorFits_of_not_reading fun hreading => by
    rw [hreading] at h
    cases h

theorem edgeEffect_classify {p : Params} {now : Micros} {b : Block} (h : cursorFits b) :
    edgeEffect (classify p b.status (elapsed now b)) (stampEdge now b) = .next (edgeBlock p now b) := by
  have hgoes : ∃ b', edgeEffect (classify p b.status (elapsed now b)) (stampEdge now b) = .next b' := by
    have hreading := (classify_status (p := p) (st := b.status) (e := elapsed now b) rfl).2.1
    cases hsymbol : classify p b.status (elapsed now b) with
    | bit0 => exact ⟨_, receiveBit_of_le false (h (hreading (by simp [hsymbol])))⟩
    | bit1 => exact ⟨_, receiveBit_of_le true (h (hreading (by simp [hsymbol])))⟩
    | _ => exact ⟨_, rfl⟩
  obtain ⟨b', hb'⟩ := hgoes
  rw [edgeBlock, hb']

theorem edgeBlock_idle {p : Params} {now : Micros} {b : Block} (h : isIdle b.status = true) :
    edgeBlock p now b = stampEdge now b := by
  rw [edgeBlock, classify_idle p _ h]
  rfl

/-! Any operation. -/

/-- What an operation leaves (R111, R112, R121 to R129, R175 to R179). -/
def afterOperation (op : Operation) (now : Micros) (s : State) : State :=
  match op with
  | .edge => complete s (edgeBlock s.params now s.block) none []
  | .caller .start =>
    if isIdle s.block.status then
      complete s (armAttempt now s.block) (some (.started true)) (wakeUpActions s.params)
    else complete s s.block (some (.started false)) []
  | .caller op => complete s s.block (accessorValue op s.block) []

theorem afterOperation_accessor {op : CallerOp} (h : op ≠ .start) (now : Micros) (s : State) :
    afterOperation (.caller op) now s = complete s s.block (accessorValue op s.block) [] := by
  cases op with
  | start => exact absurd rfl h
  | _ => rfl

theorem exec_accessor {op : CallerOp} (h : op ≠ .start) (now : Micros) (s s' : State) :
    exec (formOf s' (.caller op) now) s = .next (complete s s.block (accessorValue op s.block) []) := by
  cases op with
  | start => exact absurd rfl h
  | _ => rfl

/-- The caller's operations run in every state. -/
theorem exec_formOf_caller (op : CallerOp) (now : Micros) (s : State) :
    exec (formOf s (.caller op) now) s = .next (afterOperation (.caller op) now s) := by
  by_cases hstart : op = .start
  · subst hstart
    cases hidle : isIdle s.block.status with
    | true =>
      simp only [formOf, startFormOf, afterOperation, hidle, if_true]
      exact exec_startAccept_of_idle now hidle
    | false =>
      simp only [formOf, startFormOf, afterOperation, hidle, Bool.false_eq_true, if_false]
      exact exec_startReject_of_not_idle now hidle
  · rw [exec_accessor hstart, afterOperation_accessor hstart]

/-- The form that a state gives an operation completes in it, and leaves what the operation leaves. -/
theorem exec_formOf {s : State} (h : cursorFits s.block) (op : Operation) (now : Micros) :
    exec (formOf s op now) s = .next (afterOperation op now s) := by
  cases op with
  | edge =>
    change exec (edgeFormOf _ now) s = _
    rw [exec_edgeFormOf]
    exact edgeForm_of_next rfl (edgeEffect_classify h)
  | caller c => exact exec_formOf_caller c now s

/-- A form that the state does not give its operation is refused, in every state. -/
theorem exec_not_selected {i : Instr} {s : State} (h : formOf s (operationOfInstr i) (nowOfInstr i) ≠ i) :
    exec i s = .refused .formNotSelected := by
  obtain ⟨sym, now, rfl⟩ | ⟨now, rfl | rfl⟩ | ⟨op, now, -, hform⟩ := instr_cases i
  · rw [exec_edgeFormOf]
    refine edgeForm_not_selected fun hsymbol => h ?_
    rw [operationOfInstr_edgeFormOf, nowOfInstr_edgeFormOf, formOf, hsymbol]
  · refine if_neg fun hidle => h ?_
    simp [operationOfInstr, nowOfInstr, formOf, startFormOf, hidle]
  · refine if_pos ?_
    by_contra hbusy
    exact h (by simp [operationOfInstr, nowOfInstr, formOf, startFormOf, hbusy])
  · refine absurd ?_ h
    rw [hform s, operationOfInstr_formOf, nowOfInstr_formOf]

/-- Settles O30: the selected form is the one the state gives the operation. -/
theorem selectedFormsComplete : Obligations.SelectedFormsComplete := by
  intro i s hsafe
  have hfits := hsafe.cursorFits
  obtain ⟨hwf, -⟩ := hsafe
  rw [selects_iff_formOf hwf]
  refine ⟨fun hform => ?_, exec_not_selected⟩
  exact ⟨_, hform ▸ exec_formOf hfits (operationOfInstr i) (nowOfInstr i)⟩

/-- Settles O17: in a terminal status every interval gives the symbol of EDGE.IGNORE. -/
theorem edgeIgnoreWritesOnlyTheTimestamp : Obligations.EdgeIgnoreWritesOnlyTheTimestamp := by
  intro s now hterminal
  exact edgeForm_of_next (effect := edgeEffect .noSymbol) (classify_eq_noSymbol_iff.2 hterminal) rfl

/-! The accessors. -/

/-- Settles O27: the four accessors, each a read of its field. -/
theorem accessorsReturnTheirField : Obligations.AccessorsReturnTheirField :=
  fun s now => ⟨exec_accessor (op := .state) (by decide) now s s,
    exec_accessor (op := .lastResult) (by decide) now s s, exec_accessor (op := .getTemp) (by decide) now s s,
    exec_accessor (op := .getHumidity) (by decide) now s s⟩

/-- Settles O7: an accessor's form reads no `now`, and every other form is its own canonical form. -/
theorem nonCanonicalWordsRunAlike : Obligations.NonCanonicalWordsRunAlike := by
  intro i s
  cases i <;> exact ⟨rfl, rfl⟩

/-- The codes from 2 on are the accessors' (R85). -/
theorem opCode_ge_two {op : Operation} (h : 2 ≤ (opCode op).toNat) : ∃ c, op = .caller c ∧ c ≠ .start := by
  cases op with
  | edge => exact absurd h (by decide)
  | caller c => exact ⟨c, rfl, fun hstart => absurd h (by rw [hstart]; decide)⟩

theorem encode_code_eq_opCode (i : Instr) :
    (encode i).toNat / 2 ^ 32 = (opCode (operationOfInstr i)).toNat := by
  rw [← toNat_opField, encode, opField_mkWord]

/-- A form of an accessor's operation is that operation's form in every state. -/
theorem form_of_accessor {i : Instr} {op : CallerOp} (hi : operationOfInstr i = .caller op) (hop : op ≠ .start)
    (s : State) : i = formOf s (.caller op) (nowOfInstr i) := by
  obtain ⟨sym, now, rfl⟩ | ⟨now, rfl | rfl⟩ | ⟨c, now, -, hform⟩ := instr_cases i
  · rw [operationOfInstr_edgeFormOf] at hi
    cases hi
  · cases hi
    exact absurd rfl hop
  · cases hi
    exact absurd rfl hop
  · have hc : c = op := by
      rw [hform s, operationOfInstr_formOf] at hi
      exact Operation.caller.inj hi
    rw [hform s, nowOfInstr_formOf, hc]

/-- Settles O28: an accessor leaves the block it returns a field of. -/
theorem accessorsRepeat : Obligations.AccessorsRepeat := by
  intro i s t hcode h
  rw [encode_code_eq_opCode] at hcode
  obtain ⟨op, hoperation, hop⟩ := opCode_ge_two hcode
  have hread : ∀ u, exec i u = .next (complete u u.block (accessorValue op u.block) []) := by
    intro u
    rw [form_of_accessor hoperation hop u]
    exact exec_accessor hop _ u u
  rw [hread s] at h
  cases h
  exact ⟨rfl, hread _⟩

/-! What a form that completes may write (41_edge_state_machine.md section 3, 60_exceptions.md). -/

/-- Receiving a bit in Reading leaves Reading before the last position and ends the attempt at it. -/
theorem receiveBit_status {bit : Bool} {b b' : Block} (h : receiveBit bit b = .next b') :
    b'.status = b.status ∨ b'.status = .done ∨ b'.status = .invalid := by
  obtain ⟨-, rfl⟩ | ⟨-, -, rfl⟩ | ⟨-, rfl⟩ := receiveBit_outcomes h
  · exact .inl (accumulate_status b bit)
  · exact .inr (.inl rfl)
  · exact .inr (.inr rfl)

/-- Receiving a bit in Reading does not go back to WakingUp. -/
theorem receiveBit_status_ne_wakingUp {bit : Bool} {b b' : Block} (hreading : b.status = .reading)
    (h : receiveBit bit b = .next b') : b'.status ≠ .wakingUp := by
  obtain hst | hst | hst := receiveBit_status h <;> rw [hst]
  · rw [hreading]
    decide
  · decide
  · decide

/-- Settles O31: what each form leaves in status, where its symbol or START's guard lets it run. -/
theorem statusMovesOnlyAlongTheGraph : Obligations.StatusMovesOnlyAlongTheGraph := by
  intro i s t h
  cases i with
  | startAccept now => obtain ⟨hidle, rfl⟩ := execStartAccept_next h; exact ⟨hidle, rfl⟩
  | startReject now => obtain ⟨hbusy, rfl⟩ := execStartReject_next (now := now) h; exact ⟨hbusy, rfl⟩
  | edgeAckOk now =>
    obtain ⟨hsymbol, rfl⟩ := execEdgeAckOk_next h
    exact ⟨(classify_eq_ackOk_iff.1 hsymbol).1, rfl⟩
  | edgeAckErr now =>
    obtain ⟨hsymbol, rfl⟩ := execEdgeAckErr_next h
    exact ⟨(classify_eq_ackBad_iff.1 hsymbol).1, rfl⟩
  | edgeBit0 now =>
    obtain ⟨hsymbol, b, hb, rfl⟩ := execEdgeBit0_next h
    have hreading : s.block.status = .reading := (classify_status hsymbol).2.1 (by simp)
    exact ⟨hreading, receiveBit_status_ne_wakingUp (b := stampEdge now s.block) hreading hb⟩
  | edgeBit1 now =>
    obtain ⟨hsymbol, b, hb, rfl⟩ := execEdgeBit1_next h
    have hreading : s.block.status = .reading := (classify_status hsymbol).2.1 (by simp)
    exact ⟨hreading, receiveBit_status_ne_wakingUp (b := stampEdge now s.block) hreading hb⟩
  | edgeBitErr now =>
    obtain ⟨hsymbol, rfl⟩ := execEdgeBitErr_next h
    exact ⟨(classify_eq_bitBad_iff.1 hsymbol).1, rfl⟩
  | edgeIgnore now =>
    obtain ⟨hsymbol, rfl⟩ := execEdgeIgnore_next h
    exact ⟨(isIdle_eq_true_iff _).2 (classify_eq_noSymbol_iff.1 hsymbol).symm, rfl⟩
  | state now | lastResult now | getTemp now | getHumidity now => cases readField_next h; rfl

/-- The EDGE code of a data bit's form. -/
theorem operationOfInstr_dataBit {i : Instr} {now : Micros} {bit : Bool}
    (h : bit = false ∧ i = .edgeBit0 now ∨ bit = true ∧ i = .edgeBit1 now) : operationOfInstr i = .edge := by
  obtain ⟨-, rfl⟩ | ⟨-, rfl⟩ := h <;> rfl

/-- Settles O32: of the forms that complete, the two errors and the frame end write `result`. -/
theorem resultIsWrittenOnlyWhenAnAttemptEnds : Obligations.ResultIsWrittenOnlyWhenAnAttemptEnds := by
  intro i s t h
  rw [encode_code_eq_one_iff]
  obtain ⟨-, ht, -⟩ | ⟨now, rfl, -, rfl⟩ | ⟨now, rfl, -, rfl⟩ | ⟨now, rfl, hst, rfl⟩ |
    ⟨now, bit, b, hform, hst, hbit, rfl⟩ | ⟨now, rfl, hst, rfl⟩ | ⟨now, rfl, -, rfl⟩ := exec_next_cases h
  · left; rw [ht]; rfl
  · exact .inl rfl
  · exact .inl rfl
  · exact .inr ⟨rfl, nofun, by rw [hst]; rfl, rfl⟩
  · have hedge := operationOfInstr_dataBit hform
    obtain ⟨-, rfl⟩ | ⟨-, -, rfl⟩ | ⟨-, rfl⟩ := receiveBit_outcomes hbit
    · exact .inl (accumulate_result _ bit)
    · exact .inr ⟨hedge, nofun, by rw [hst]; rfl, rfl⟩
    · exact .inr ⟨hedge, nofun, by rw [hst]; rfl, rfl⟩
  · exact .inr ⟨rfl, nofun, by rw [hst]; rfl, rfl⟩
  · exact .inl rfl

/-- Settles O33: of the forms that complete, only a frame end that publishes writes the two values. -/
theorem valuesChangeOnlyWithASuccessfulFrame : Obligations.ValuesChangeOnlyWithASuccessfulFrame := by
  intro i s t h
  obtain ⟨-, ht, -⟩ | ⟨now, rfl, -, rfl⟩ | ⟨now, rfl, -, rfl⟩ | ⟨now, rfl, -, rfl⟩ |
    ⟨now, bit, b, -, hst, hbit, rfl⟩ | ⟨now, rfl, -, rfl⟩ | ⟨now, rfl, -, rfl⟩ := exec_next_cases h
  case inl => left; rw [ht]; exact ⟨rfl, rfl⟩
  case inr.inr.inr.inr.inl =>
    obtain ⟨-, rfl⟩ | ⟨-, hmatch, rfl⟩ | ⟨-, rfl⟩ := receiveBit_outcomes hbit
    · exact .inl ⟨accumulate_temperature _ bit, accumulate_humidity _ bit⟩
    · exact .inr ⟨hst, rfl, rfl, hmatch, rfl, rfl⟩
    · exact .inl ⟨accumulate_temperature _ bit, accumulate_humidity _ bit⟩
  all_goals exact .inl ⟨rfl, rfl⟩

/-- Settles O34: the forms that leave Invalid where it was not are the two errors of the intervals and the
data bit at the last position, and each writes what `raiseError` writes. -/
theorem errorEntryKeepsTheRest : Obligations.ErrorEntryKeepsTheRest := by
  intro i s t h hbefore hinvalid
  obtain ⟨-, ht, -⟩ | ⟨now, rfl, -, rfl⟩ | ⟨now, rfl, -, rfl⟩ | ⟨now, rfl, -, rfl⟩ |
    ⟨now, bit, b, hform, hst, hbit, rfl⟩ | ⟨now, rfl, -, rfl⟩ | ⟨now, rfl, -, rfl⟩ := exec_next_cases h
  · rw [ht] at hinvalid
    exact absurd hinvalid hbefore
  · cases hinvalid
  · cases hinvalid
  · exact ⟨.inl ⟨rfl, rfl, rfl, rfl, rfl⟩, rfl, rfl, rfl, rfl⟩
  · obtain ⟨-, rfl⟩ | ⟨-, -, rfl⟩ | ⟨hlast, rfl⟩ := receiveBit_outcomes hbit
    · rw [complete_block, accumulate_status, stampEdge_status, hst] at hinvalid
      cases hinvalid
    · cases hinvalid
    · have hi : i = (if bit then .edgeBit1 (nowOfInstr i) else .edgeBit0 (nowOfInstr i)) ∧
          now = nowOfInstr i := by
        obtain ⟨rfl, rfl⟩ | ⟨rfl, rfl⟩ := hform <;> exact ⟨rfl, rfl⟩
      obtain ⟨hi, rfl⟩ := hi
      rw [accumulate_at_last bit hlast]
      exact ⟨.inr (.inr ⟨bit, hi, rfl, hlast, rfl, rfl, rfl⟩), rfl, rfl, rfl, rfl⟩
  · exact ⟨.inr (.inl ⟨rfl, rfl, rfl, rfl, rfl⟩), rfl, rfl, rfl, rfl⟩
  · exact absurd hinvalid hbefore

/-- Settles O35: of the forms without the EDGE code only START.ACCEPT writes the block, and an attempt rejects
a START. -/
theorem callerCannotTouchAnAttempt : Obligations.CallerCannotTouchAnAttempt := by
  intro i s t hcode hbusy h
  rw [ne_eq, encode_code_eq_one_iff] at hcode
  obtain ⟨-, ht, -⟩ | ⟨now, -, hidle, -⟩ | ⟨now, rfl, -, -⟩ | ⟨now, rfl, -, -⟩ |
    ⟨now, bit, b, hform, -, -, -⟩ | ⟨now, rfl, -, -⟩ | ⟨now, rfl, -, -⟩ := exec_next_cases h
  case inl => rw [ht]; exact ⟨rfl, rfl⟩
  case inr.inl => rw [hbusy] at hidle; cases hidle
  case inr.inr.inr.inr.inl => exact absurd (operationOfInstr_dataBit hform) hcode
  all_goals exact absurd rfl hcode

/-- Settles O36: every form but START.ACCEPT emits the empty list. -/
theorem onlyAnAcceptedStartTouchesTheLine : Obligations.OnlyAnAcceptedStartTouchesTheLine := by
  intro i s t h hactions
  obtain ⟨-, ht, -⟩ | ⟨now, -, -, rfl⟩ | ⟨now, -, -, rfl⟩ | ⟨now, -, -, rfl⟩ |
    ⟨now, bit, b, -, -, -, rfl⟩ | ⟨now, -, -, rfl⟩ | ⟨now, -, -, rfl⟩ := exec_next_cases h
  case inl => rw [ht] at hactions; exact absurd rfl hactions
  case inr.inl => exact ⟨rfl, rfl⟩
  all_goals exact absurd rfl hactions

/-- Settles O29: the two code tables, and finitely many values to tell apart. -/
theorem statusAndResultCodes : Obligations.StatusAndResultCodes := by
  refine ⟨rfl, rfl, rfl, rfl, rfl, rfl, rfl, rfl, rfl, fun st => ?_, fun st st' => ?_, fun r r' => ?_, fun r => ?_⟩
  · cases st <;> rfl
  · cases st <;> cases st' <;> decide
  · cases r <;> cases r' <;> decide
  · cases r <;> decide

end Sys2Proof.Machine
end

section
/-! Clock samples (60_exceptions.md R203): the forms read the clock only through differences. -/

namespace Sys2Proof.Machine

open Host

/-- The block on a clock that reads `c` more, the block part of `shiftClock`. -/
def shiftStamp (c : Micros) (b : Block) : Block := { b with lastEdgeTimestamp := b.lastEdgeTimestamp + c }

/-- An outcome on the block with its next block changed by `f`, as `mapNext` changes a next state. -/
def mapBlock (f : Block → Block) : Outcome Block Fault Refusal → Outcome Block Fault Refusal
  | .next b => .next (f b)
  | .fault r => .fault r
  | .refused r => .refused r

theorem shiftClock_eq (c : Micros) (s : State) : shiftClock c s = { s with block := shiftStamp c s.block } := rfl

theorem elapsed_shiftStamp (c now : Micros) (b : Block) : elapsed (now + c) (shiftStamp c b) = elapsed now b :=
  add_sub_add_right_eq_sub now b.lastEdgeTimestamp c

theorem stampEdge_shiftStamp (c now : Micros) (b : Block) :
    stampEdge (now + c) (shiftStamp c b) = shiftStamp c (stampEdge now b) := rfl

@[simp] theorem shiftStamp_bitIndex (c : Micros) (b : Block) : (shiftStamp c b).bitIndex = b.bitIndex := rfl
@[simp] theorem shiftStamp_data (c : Micros) (b : Block) : (shiftStamp c b).data = b.data := rfl

@[simp] theorem frameComplete_shiftStamp (c : Micros) (b : Block) :
    frameComplete (shiftStamp c b) = frameComplete b := rfl

theorem accumulate_shiftStamp (c : Micros) (bit : Bool) (b : Block) :
    accumulate bit (shiftStamp c b) = shiftStamp c (accumulate bit b) := by
  have hstore : storeBit bit (shiftStamp c b) = shiftStamp c (storeBit bit b) := by cases bit <;> rfl
  rw [accumulate, accumulate, hstore, cursorAdvance, cursorAdvance, shiftStamp_bitIndex]
  split <;> rfl

theorem frameEnd_shiftStamp (c : Micros) (b : Block) : frameEnd (shiftStamp c b) = shiftStamp c (frameEnd b) := by
  rw [frameEnd, frameEnd, shiftStamp_data]
  split <;> rfl

theorem receiveBit_of_not_le (bit : Bool) {b : Block} (h : ¬ b.byteIndex ≤ 4) :
    receiveBit bit b = .fault .cursorOutOfRange := if_neg h

theorem receiveBit_shiftStamp (c : Micros) (bit : Bool) (b : Block) :
    receiveBit bit (shiftStamp c b) = mapBlock (shiftStamp c) (receiveBit bit b) := by
  by_cases hinside : b.byteIndex ≤ 4
  · rw [receiveBit_of_le bit hinside, receiveBit_of_le bit (b := shiftStamp c b) hinside,
      accumulate_shiftStamp, frameEnd_shiftStamp, frameComplete_shiftStamp]
    cases frameComplete (accumulate bit b) <;> rfl
  · rw [receiveBit_of_not_le bit hinside, receiveBit_of_not_le bit (b := shiftStamp c b) hinside]
    rfl

theorem edgeEffect_shiftStamp (c : Micros) (sym : Symbol) (b : Block) :
    edgeEffect sym (shiftStamp c b) = mapBlock (shiftStamp c) (edgeEffect sym b) := by
  cases sym with
  | bit0 => exact receiveBit_shiftStamp c false b
  | bit1 => exact receiveBit_shiftStamp c true b
  | _ => rfl

theorem edgeForm_shiftClock (c : Micros) (sym : Symbol) (now : Micros) (s : State) :
    edgeForm sym (edgeEffect sym) (now + c) (shiftClock c s) =
      mapNext (shiftClock c) (edgeForm sym (edgeEffect sym) now s) := by
  rw [shiftClock_eq]
  unfold edgeForm
  simp only [elapsed_shiftStamp, stampEdge_shiftStamp, edgeEffect_shiftStamp]
  change (if classify s.params s.block.status _ = sym then _ else _) = _
  by_cases hsymbol : classify s.params s.block.status (elapsed now s.block) = sym
  · rw [if_pos hsymbol, if_pos hsymbol]
    cases edgeEffect sym (stampEdge now s.block) <;> rfl
  · rw [if_neg hsymbol, if_neg hsymbol]
    rfl

theorem shiftInstr_edgeFormOf (c : Micros) (sym : Symbol) (now : Micros) :
    shiftInstr c (edgeFormOf sym now) = edgeFormOf sym (now + c) := by
  cases sym <;> rfl

/-- Settles O38: an EDGE reads its clock sample through `elapsed`, START only writes it, an accessor takes
none. -/
theorem onlyClockDifferencesMatter : Obligations.OnlyClockDifferencesMatter := by
  intro c i s
  obtain ⟨sym, now, rfl⟩ | ⟨now, rfl | rfl⟩ | ⟨op, now, hop, hform⟩ := instr_cases i
  · rw [shiftInstr_edgeFormOf, exec_edgeFormOf, exec_edgeFormOf, edgeForm_shiftClock]
  · change (if isIdle s.block.status then _ else _) = mapNext _ (if isIdle s.block.status then _ else _)
    cases isIdle s.block.status <;> rfl
  · change (if isIdle s.block.status then _ else _) = mapNext _ (if isIdle s.block.status then _ else _)
    cases isIdle s.block.status <;> rfl
  · have hsame : shiftInstr c (formOf s (.caller op) now) = formOf s (.caller op) now := by
      cases op with
      | start => exact absurd rfl hop
      | _ => rfl
    have hvalue : accessorValue op (shiftStamp c s.block) = accessorValue op s.block := by cases op <;> rfl
    rw [hform s, hsame, exec_accessor hop, exec_accessor hop, shiftClock_eq, hvalue]
    rfl

end Sys2Proof.Machine
end

section
/-! The step (20_memory.md R61 to R63, 70_reset_and_hazards.md R215): the event words, the reset, and what no
step writes. -/

namespace Sys2Proof.Machine

open Host

@[simp] theorem settleCaller_direct (s : State) : settleCaller .direct s = s := rfl

@[simp] theorem finish_direct (o : Outcome State Fault Refusal) : finish .direct o = o := by cases o <;> rfl

/-- A word the caller may issue, or one that is not the caller's, is fetched as it stands. -/
theorem fetch_word {s : State} {w : EventWord} {rest : List Event} (hin : s.inputs = .word w :: rest)
    (hfree : s.caller = .idle ∨ isCallerWord w = false) :
    fetch s = .issue .direct w { s with inputs := rest } := by
  have hpresent : fetch s = presentWord w { s with inputs := rest } := by simp [fetch, hin]
  rw [hpresent, presentWord, if_neg]
  obtain h | h := hfree <;> simp [h]

/-- The step on a fetched word of a named operation. -/
theorem step_of_fetch {s s' : State} {role : Role} {w : EventWord} {op : Operation}
    (hf : fetch s = .issue role w s') (hop : operationOf (opField w) = some op) :
    step s = finish role (exec (formOf s' op (nowField w)) s') := by
  rw [step, hf]
  simp only [decode_of_operationOf s' hop]

theorem isCallerWord_eq_true_iff {w : EventWord} :
    isCallerWord w = true ↔ ∃ c, operationOf (opField w) = some (.caller c) := by
  unfold isCallerWord
  split <;> simp_all

/-- Code 1 is EDGE's (R85). -/
theorem operationOf_of_code_one {w : EventWord} (h : w.toNat / 2 ^ 32 = 1) :
    operationOf (opField w) = some .edge := by
  have hcode : opField w = 1 := by
    apply BitVec.eq_of_toNat_eq
    rw [toNat_opField, h]
    rfl
  rw [hcode]
  rfl

theorem isCallerWord_of_code_one {w : EventWord} (h : w.toNat / 2 ^ 32 = 1) : isCallerWord w = false := by
  rw [isCallerWord, operationOf_of_code_one h]

/-- Settles O5: a reserved code names no operation, so the word is nobody's and its decoding is an error. -/
theorem reservedCodesAreRefused : Obligations.ReservedCodesAreRefused := by
  intro s w rest hcode hin
  have hnone : operationOf (opField w) = none := by rwa [operationOf_eq_none_iff, toNat_opField]
  have hfetch := fetch_word hin (.inr (by rw [isCallerWord, hnone]))
  refine ⟨opField w, toNat_opField w, ?_⟩
  simp only [step, hfetch, decode, hnone, rejectWord]

/-- Settles O6: the fetch takes the event and nothing else, and a form issued on its own is the whole step. -/
theorem stepRunsDecodedWord : Obligations.StepRunsDecodedWord := by
  intro s w rest i hin hfree hdecode
  have hfetch := fetch_word hin (hfree.imp_right isCallerWord_of_code_one)
  obtain ⟨op, hop, rfl, -⟩ := decode_ok hdecode
  rw [step_of_fetch hfetch hop, finish_direct]
  cases op <;> rfl

/-- Settles O37: neither the fetch, nor an operation form, nor the caller, nor a reset writes the parameters. -/
theorem parametersNeverChange : Obligations.ParametersNeverChange := by
  intro s t h
  obtain ⟨s', hf, rfl⟩ | ⟨role, w, s', i, u, hf, -, hexec, rfl⟩ := step_next h
  · obtain ⟨rest, -, rfl⟩ := fetch_reset hf
    rfl
  · obtain ⟨hs', -⟩ := fetch_issue hf
    rw [settleCaller_params, exec_context hexec, hs']

/-! Reset. -/

theorem step_reset {s : State} {rest : List Event} (hin : s.inputs = .reset :: rest) :
    step s = .next (applyReset { s with inputs := rest }) := by
  simp [step, fetch, hin]

/-- Settles O41: the reset writes the block, the output and the actions, whatever they were. -/
theorem resetStrikesInAnyState : Obligations.ResetStrikesInAnyState :=
  fun _ _ hin => ⟨_, step_reset hin, rfl, rfl, rfl, rfl, rfl⟩

/-- Settles O40: the reset status is terminal, so START is accepted, and arming keeps the result. -/
theorem resetStateIsIdle : Obligations.ResetStateIsIdle :=
  ⟨rfl, rfl, rfl, rfl, fun now => ⟨_, exec_startAccept_of_idle now rfl, rfl, rfl⟩⟩

/-! The refusals of the fetch. -/

theorem presentWord_ne_noEvent (w : EventWord) (s : State) : presentWord w s ≠ .stop .noEvent := by
  unfold presentWord
  split <;> simp

theorem presentBlockingRead_ne_noEvent (now : Micros) (s : State) :
    presentBlockingRead now s ≠ .stop .noEvent := by
  unfold presentBlockingRead
  split <;> simp

/-- A turn stops only with no BLOCKING_READ in progress, and then for the reason given. -/
theorem callerTurn_eq_stop_iff {r r' : Refusal} {s : State} :
    callerTurn r s = .stop r' ↔ s.caller = .idle ∧ r = r' := by
  unfold callerTurn
  cases s.caller <;> simp

theorem presentRequest_ne_noEvent (req : CallerRequest) (now : Micros) (s : State) :
    presentRequest req now s ≠ .stop .noEvent := by
  cases req with
  | op op => exact presentWord_ne_noEvent _ s
  | blockingRead => exact presentBlockingRead_ne_noEvent now s
  | turn => exact fun h => nomatch (callerTurn_eq_stop_iff.1 h).2

theorem requestRefusal_ne_noEvent (req : CallerRequest) (phase : CallerPhase) :
    requestRefusal req phase ≠ some .noEvent := by
  unfold requestRefusal
  split <;> split <;> simp

theorem arbitrate_ne_noEvent (req : CallerRequest) (now : Micros) (s : State) :
    arbitrate req now s ≠ .stop .noEvent := by
  obtain ⟨r, hr, ha⟩ | ⟨-, ⟨-, ha⟩ | ⟨-, ha⟩⟩ := arbitrate_cases req now s <;> rw [ha]
  · rintro ⟨rfl⟩
    exact requestRefusal_ne_noEvent req _ hr
  · simp
  · exact presentRequest_ne_noEvent req now _

/-- Only an empty list of inputs and an idle caller leave nothing to fetch. -/
theorem fetch_eq_noEvent_iff {s : State} : fetch s = .stop .noEvent ↔ s.inputs = [] ∧ s.caller = .idle := by
  unfold fetch
  split
  next hin => simp [hin, callerTurn_eq_stop_iff]
  next hin => simp [hin, callerTurn_eq_stop_iff]
  next hin => simp [hin]
  next hin => simp [hin, presentWord_ne_noEvent]
  next hin => simp [hin, arbitrate_ne_noEvent]
  next hin => simp [hin, presentBlockingRead_ne_noEvent]

/-- Settles O56: of a step's refusals only the fetch's can be this one. -/
theorem noEventNoStep : Obligations.NoEventNoStep := by
  intro s
  rw [← fetch_eq_noEvent_iff]
  refine ⟨fun h => ?_, fun h => by rw [step, h]⟩
  obtain hf | hr | ⟨code, hr⟩ := step_refused h
  · exact hf
  · cases hr
  · cases hr

end Sys2Proof.Machine
end

section
/-! The invariant (10_state.md section 7): what each write to the block keeps of it, and that every step keeps it. -/

namespace Sys2Proof.Machine

open Host

/-- The clauses of `SafeState` on the block (R36, R37, R38). -/
def blockInv (p : Params) (b : Block) : Prop := cursorInv b ∧ dataInv b ∧ resultInv p b

theorem safeState_iff (s : State) :
    SafeState s ↔ s.params.wf = true ∧ blockInv s.params s.block ∧
      (s.caller = .collecting → isIdle s.block.status = true) := by
  simp only [SafeState, blockInv, and_assoc]

/-! The writes to the block. -/

theorem blockInv_reset (p : Params) : blockInv p (Block.reset p) := by
  simp [blockInv, cursorInv, dataInv, resultInv]

theorem blockInv_stampEdge {p : Params} {b : Block} (now : Micros) (h : blockInv p b) :
    blockInv p (stampEdge now b) := h

/-- Arming clears the accumulator and keeps the result and the values. -/
theorem blockInv_armAttempt {p : Params} {b : Block} (now : Micros) (h : blockInv p b) :
    blockInv p (armAttempt now b) := by
  obtain ⟨-, -, -, -, hnone⟩ := h
  refine ⟨?_, ?_, ?_, ?_, hnone⟩
  · simp [cursorInv]
  · simp [dataInv]
  · simp
  · simp

/-- The acknowledgement takes the cleared accumulator over: no bit is received yet. -/
theorem blockInv_startReading {p : Params} {b : Block} (hst : b.status = .wakingUp) (h : blockInv p b) :
    blockInv p (setStatus .reading b) := by
  obtain ⟨⟨-, hwaking, -, -⟩, -, -, -, hnone⟩ := h
  obtain ⟨hbyte, hbit, hdata⟩ := hwaking hst
  refine ⟨?_, ?_, ?_, ?_, hnone⟩
  · simp [cursorInv, hbyte]
  · simp [dataInv, hdata]
  · simp
  · simp

/-- An error is neither Ok nor None, so of the result invariant nothing is left to keep. -/
theorem blockInv_raiseError {p : Params} {b : Block} (e : ErrorKind) (hbyte : b.byteIndex.toNat ≤ 5)
    (hend : b.byteIndex = 5 → b.bitIndex = 7) : blockInv p (raiseError e b) := by
  refine ⟨?_, ?_, ?_⟩
  · simpa [cursorInv, hbyte] using hend
  · simp [dataInv]
  · cases e <;> simp [resultInv, errorResult]

/-- An attempt in flight has not completed its frame. -/
theorem byteIndex_le_four_of_not_idle {b : Block} (h : cursorInv b) (hbusy : isIdle b.status = false) :
    b.byteIndex ≤ 4 := by
  obtain ⟨-, hwaking, hreading, -⟩ := h
  obtain hst | hst := (isIdle_eq_false_iff _).1 hbusy
  · obtain ⟨hbyte, -, -⟩ := hwaking hst
    rw [hbyte]
    decide
  · exact hreading hst

theorem blockInv_raiseError_of_attempt {p : Params} {b : Block} (e : ErrorKind) (h : blockInv p b)
    (hbusy : isIdle b.status = false) : blockInv p (raiseError e b) := by
  have hle := byteIndex_le_four_of_not_idle h.1 hbusy
  refine blockInv_raiseError e h.1.1 fun hfive => ?_
  rw [hfive] at hle
  exact absurd hle (by decide)

/-- A bit before the last position: the positions not yet received are fewer by the one written. -/
theorem blockInv_accumulate {p : Params} {b : Block} (bit : Bool) (h : blockInv p b)
    (hreading : b.status = .reading) (hposition : position b < 39) : blockInv p (accumulate bit b) := by
  have hinside : b.byteIndex ≤ 4 := byteIndex_le_four_iff.2 (Nat.lt_succ_of_lt hposition)
  have hnext := position_accumulate bit hinside
  have hstays : (accumulate bit b).byteIndex.toNat ≤ 4 :=
    byteIndex_le_four_iff.2 (by rw [hnext]; exact Nat.succ_lt_succ hposition)
  obtain ⟨-, hdata, -, -, hnone⟩ := h
  refine ⟨⟨by omega, ?_, fun _ => hstays, fun hfive => ?_⟩, fun _ k hk hle => ?_, ?_, ?_, ?_⟩
  · simp [hreading]
  · rw [hfive] at hstays
    exact absurd hstays (by decide)
  · rw [hnext] at hle
    rw [frameBit_accumulate bit hinside, if_neg (by omega)]
    exact hdata hreading k hk (by omega)
  · simp [hreading]
  · simp [hreading]
  · simpa using hnone

/-- After the 40th bit the cursor rests at (5, 7), and the published values are the decode of the frame. -/
theorem blockInv_publishFrame {p : Params} {b : Block} (bit : Bool) (hlast : position b = 39)
    (hmatch : checksumOk (accumulate bit b).data = true) : blockInv p (publishFrame (accumulate bit b)) := by
  have hcursor := accumulate_at_last bit hlast
  refine ⟨?_, ?_, ?_⟩
  · simp [cursorInv, hcursor]
  · simp [dataInv]
  · simp [resultInv, hmatch]
    simp [hcursor]

theorem blockInv_checksumMismatch {p : Params} {b : Block} (bit : Bool) (hlast : position b = 39) :
    blockInv p (raiseError .checksumMismatch (accumulate bit b)) := by
  rw [accumulate_at_last bit hlast]
  exact blockInv_raiseError _ (le_refl 5) (fun _ => rfl)

theorem blockInv_receiveBit {p : Params} {bit : Bool} {b b' : Block} (h : blockInv p b)
    (hreading : b.status = .reading) (hb : receiveBit bit b = .next b') : blockInv p b' := by
  obtain ⟨hposition, rfl⟩ | ⟨hlast, hmatch, rfl⟩ | ⟨hlast, rfl⟩ := receiveBit_outcomes hb
  · exact blockInv_accumulate bit h hreading hposition
  · exact blockInv_publishFrame bit hlast hmatch
  · exact blockInv_checksumMismatch bit hlast

/-- Every form that completes keeps the invariant of the block. -/
theorem exec_keeps_blockInv {i : Instr} {s t : State} (h : exec i s = .next t)
    (hinv : blockInv s.params s.block) : blockInv s.params t.block := by
  obtain ⟨-, ht, -⟩ | ⟨now, -, -, rfl⟩ | ⟨now, -, hst, rfl⟩ | ⟨now, -, hst, rfl⟩ |
    ⟨now, bit, b, -, hst, hbit, rfl⟩ | ⟨now, -, hst, rfl⟩ | ⟨now, -, -, rfl⟩ := exec_next_cases h
  · rw [ht]
    exact hinv
  · exact blockInv_armAttempt now hinv
  · exact blockInv_startReading hst (blockInv_stampEdge now hinv)
  · exact blockInv_raiseError_of_attempt (b := stampEdge now s.block) _ hinv (by rw [stampEdge_status, hst]; rfl)
  · exact blockInv_receiveBit (blockInv_stampEdge now hinv) hst hbit
  · exact blockInv_raiseError_of_attempt (b := stampEdge now s.block) _ hinv (by rw [stampEdge_status, hst]; rfl)
  · exact blockInv_stampEdge now hinv

/-! What a step from a safe state does. -/

/-- Who issues an operation in a state: the caller inside a BLOCKING_READ, an agent on its own, or the caller
beginning a BLOCKING_READ (R114). -/
def issuedBy (s : State) (role : Role) (op : Operation) : Prop :=
  match role with
  | .poll => s.caller = .polling ∧ op = .caller .state
  | .collect => s.caller = .collecting ∧ op = .caller .lastResult
  | .direct => s.caller = .idle ∨ op = .edge
  | .blockingStart => s.caller = .idle ∧ op = .caller .start

theorem FetchedBy.issuedBy {s : State} {role : Role} {w : EventWord} {op : Operation}
    (h : FetchedBy s role w) (hop : operationOf (opField w) = some op) : issuedBy s role op := by
  obtain ⟨rfl, hc, rfl⟩ | ⟨rfl, hc, rfl⟩ | ⟨rfl, hfree⟩ | ⟨rfl, hc, now, rfl⟩ := h
  · rw [operationOf_opField_callerWord] at hop
    exact ⟨hc, (Option.some.inj hop).symm⟩
  · rw [operationOf_opField_callerWord] at hop
    exact ⟨hc, (Option.some.inj hop).symm⟩
  · cases op with
    | edge => exact .inr rfl
    | caller c => exact .inl (hfree (isCallerWord_eq_true_iff.2 ⟨c, hop⟩))
  · rw [operationOf_opField_callerWord] at hop
    exact ⟨hc, (Option.some.inj hop).symm⟩

/-- All that a step can do from a state whose cursor fits: a reset, or one whole operation. -/
theorem step_next_operation {s t : State} (hfits : cursorFits s.block) (h : step s = .next t) :
    (∃ rest, s.inputs = .reset :: rest ∧ t = applyReset { s with inputs := rest }) ∨
    ∃ s' role op now, s' = { s with inputs := s'.inputs, draws := s'.draws } ∧ issuedBy s' role op ∧
      exec (formOf s' op now) s' = .next (afterOperation op now s') ∧
      t = settleCaller role (afterOperation op now s') := by
  obtain ⟨s', hf, rfl⟩ | ⟨role, w, s', i, u, hf, hdecode, hexec, rfl⟩ := step_next h
  · obtain ⟨rest, hin, rfl⟩ := fetch_reset hf
    exact .inl ⟨rest, hin, rfl⟩
  · obtain ⟨hs', hby⟩ := fetch_issue hf
    obtain ⟨op, hop, rfl, -⟩ := decode_ok hdecode
    have hafter := exec_formOf (s := s') (by rw [hs']; exact hfits) op (nowField w)
    cases hafter.symm.trans hexec
    exact .inr ⟨s', role, op, nowField w, hs', by rw [hs']; exact hby.issuedBy hop, hafter, rfl⟩

/-! The caller after its operation (R114). -/

theorem settleCaller_poll (s : State) (b : Block) (st : Status) (acts : List Action) :
    settleCaller .poll (complete s b (some (.status st)) acts) =
      if isIdle st then { complete s b (some (.status st)) acts with caller := .collecting }
      else complete s b (some (.status st)) acts := rfl

theorem settleCaller_collect (s : State) (b : Block) (r : Result) (acts : List Action) :
    settleCaller .collect (complete s b (some (.result r)) acts) =
      { complete s b (some (.result r)) acts with caller := .idle, blockingReturn := some r } := rfl

/-- An operation writes the block, the output and the actions only. -/
theorem afterOperation_frame (op : Operation) (now : Micros) (s : State) :
    afterOperation op now s = complete s (afterOperation op now s).block (afterOperation op now s).output
      (afterOperation op now s).actions := by
  unfold afterOperation
  split
  · rfl
  · split <;> rfl
  · rfl

@[simp] theorem afterOperation_params (op : Operation) (now : Micros) (s : State) :
    (afterOperation op now s).params = s.params := by
  rw [afterOperation_frame, complete_params]
@[simp] theorem afterOperation_inputs (op : Operation) (now : Micros) (s : State) :
    (afterOperation op now s).inputs = s.inputs := by
  rw [afterOperation_frame, complete_inputs]
@[simp] theorem afterOperation_caller (op : Operation) (now : Micros) (s : State) :
    (afterOperation op now s).caller = s.caller := by
  rw [afterOperation_frame, complete_caller]
@[simp] theorem afterOperation_blockingReturn (op : Operation) (now : Micros) (s : State) :
    (afterOperation op now s).blockingReturn = s.blockingReturn := by
  rw [afterOperation_frame, complete_blockingReturn]

/-- In a terminal status an operation other than START writes at most the timestamp. -/
theorem afterOperation_block_of_idle {op : Operation} (hop : op ≠ .caller .start) (now : Micros) {s : State}
    (h : isIdle s.block.status = true) :
    (afterOperation op now s).block = s.block ∨ (afterOperation op now s).block = stampEdge now s.block := by
  cases op with
  | edge => exact .inr (edgeBlock_idle h)
  | caller c =>
    rw [afterOperation_accessor (fun hc => hop (by rw [hc]))]
    exact .inl rfl

theorem afterOperation_status_of_idle {op : Operation} (hop : op ≠ .caller .start) (now : Micros) {s : State}
    (h : isIdle s.block.status = true) : (afterOperation op now s).block.status = s.block.status := by
  obtain hb | hb := afterOperation_block_of_idle hop now h <;> rw [hb]
  rfl

/-- A caller that collects after a step has seen a terminal status, which is still there. -/
theorem collecting_after_operation {s : State} {role : Role} {op : Operation} {now : Micros}
    (hby : issuedBy s role op) (hseen : s.caller = .collecting → isIdle s.block.status = true)
    (h : (settleCaller role (afterOperation op now s)).caller = .collecting) :
    isIdle (afterOperation op now s).block.status = true := by
  cases role with
  | direct =>
    rw [settleCaller_direct, afterOperation_caller] at h
    have hidle := hseen h
    obtain hfree | rfl := hby
    · rw [h] at hfree
      cases hfree
    · rw [afterOperation_status_of_idle (by simp) now hidle]
      exact hidle
  | blockingStart => cases h
  | poll =>
    obtain ⟨hpolling, rfl⟩ := hby
    change isIdle s.block.status = true
    change (settleCaller .poll (complete s s.block (some (.status s.block.status)) [])).caller = _ at h
    rw [settleCaller_poll] at h
    split at h
    next hidle => exact hidle
    next => rw [complete_caller, hpolling] at h; cases h
  | collect =>
    obtain ⟨-, rfl⟩ := hby
    cases h

/-- Settles O43: the block's clauses hold after every form and after a reset, and the caller's after every
operation. -/
theorem everyStepKeepsTheInvariant : Obligations.EveryStepKeepsTheInvariant := by
  intro s t hsafe h
  obtain ⟨rest, -, rfl⟩ | ⟨s', role, op, now, hs', hby, hexec, rfl⟩ := step_next_operation hsafe.cursorFits h
  · obtain ⟨hwf, -⟩ := hsafe
    exact (safeState_iff _).2 ⟨hwf, blockInv_reset _, fun _ => rfl⟩
  · have hsafe' : SafeState s' := by
      rw [hs']
      exact hsafe
    obtain ⟨hwf, hinv, hseen⟩ := (safeState_iff s').1 hsafe'
    refine (safeState_iff _).2 ?_
    rw [settleCaller_params, settleCaller_block, afterOperation_params]
    exact ⟨hwf, exec_keeps_blockInv hexec hinv, collecting_after_operation hby hseen⟩

/-- Settles O44: a step faults only in a form, and the decoded form completes where the cursor fits. -/
theorem noStepLeavesTheAccumulator : Obligations.NoStepLeavesTheAccumulator := by
  intro s hsafe f h
  obtain ⟨role, w, s', i, hf, hdecode, hexec⟩ := step_fault h
  obtain ⟨hs', -⟩ := fetch_issue hf
  obtain ⟨op, -, rfl, -⟩ := decode_ok hdecode
  have hfits : cursorFits s'.block := by
    rw [hs']
    exact hsafe.cursorFits
  cases (exec_formOf hfits op (nowField w)).symm.trans hexec

/-- Settles O42: the default windows are in order, and the reset block keeps the invariant with any
parameters. -/
theorem invariantHoldsAtReset : Obligations.InvariantHoldsAtReset := by
  refine (safeState_iff _).2 ⟨?_, blockInv_reset _, fun _ => rfl⟩
  exact (params_wf_iff _).2 ⟨by decide, by decide, by decide⟩

end Sys2Proof.Machine
end

section
/-! The hidden fields in a terminal status (10_state.md R34, R35): two runs of one step. -/

namespace Sys2Proof.Machine

open Host

/-- What was fetched, with the state it comes with changed by `f`. -/
def mapFetched (f : State → State) : Fetched → Fetched
  | .stop r => .stop r
  | .reset s => .reset (f s)
  | .issue role w s => .issue role w (f s)

/-- The machine with another block. -/
def withBlock (b : Block) (s : State) : State := { s with block := b }

theorem callerTurn_withBlock (r : Refusal) (b : Block) (s : State) :
    callerTurn r (withBlock b s) = mapFetched (withBlock b) (callerTurn r s) := by
  change (match s.caller with | .idle => _ | .polling => _ | .collecting => _) = _
  unfold callerTurn
  cases s.caller <;> rfl

theorem presentWord_withBlock (w : EventWord) (b : Block) (s : State) :
    presentWord w (withBlock b s) = mapFetched (withBlock b) (presentWord w s) := by
  change (if (isCallerWord w && s.caller != .idle) = true then _ else _) = _
  unfold presentWord
  split <;> rfl

theorem presentBlockingRead_withBlock (now : Micros) (b : Block) (s : State) :
    presentBlockingRead now (withBlock b s) = mapFetched (withBlock b) (presentBlockingRead now s) := by
  change (if s.caller = .idle then _ else _) = _
  unfold presentBlockingRead
  split <;> rfl

theorem presentRequest_withBlock (req : CallerRequest) (now : Micros) (b : Block) (s : State) :
    presentRequest req now (withBlock b s) = mapFetched (withBlock b) (presentRequest req now s) := by
  cases req with
  | op op => exact presentWord_withBlock _ b s
  | blockingRead => exact presentBlockingRead_withBlock now b s
  | turn => exact callerTurn_withBlock _ b s

/-- The order of two operations presented together depends on the block's status alone. -/
theorem edgeGoesFirst_withBlock (req : CallerRequest) {b : Block} {s : State} (h : b.status = s.block.status) :
    edgeGoesFirst req (withBlock b s) = ((edgeGoesFirst req s).1, withBlock b (edgeGoesFirst req s).2) := by
  unfold edgeGoesFirst
  simp only [withBlock, h]
  (repeat' split) <;> rfl

theorem arbitrate_withBlock (req : CallerRequest) (now : Micros) {b : Block} {s : State}
    (h : b.status = s.block.status) :
    arbitrate req now (withBlock b s) = mapFetched (withBlock b) (arbitrate req now s) := by
  unfold arbitrate
  rw [edgeGoesFirst_withBlock req h]
  change (match requestRefusal req s.caller with | some r => _ | none => _) = _
  cases requestRefusal req s.caller with
  | some r => rfl
  | none =>
    cases hfirst : (edgeGoesFirst req s).1 with
    | true => simp only [hfirst, if_true]; rfl
    | false =>
      simp only [hfirst, Bool.false_eq_true, if_false]
      exact presentRequest_withBlock req now b
        { (edgeGoesFirst req s).2 with inputs := .word (wordOf .edge now) :: (edgeGoesFirst req s).2.inputs }

/-- The fetch reads nothing of the block but its status. -/
theorem fetch_withBlock {b : Block} {s : State} (h : b.status = s.block.status) :
    fetch (withBlock b s) = mapFetched (withBlock b) (fetch s) := by
  have hin : (withBlock b s).inputs = s.inputs := rfl
  unfold fetch
  rw [hin]
  cases s.inputs with
  | nil => exact callerTurn_withBlock _ b s
  | cons e rest =>
    cases e with
    | word w => exact presentWord_withBlock w b { s with inputs := rest }
    | together req now => exact arbitrate_withBlock req now (s := { s with inputs := rest }) h
    | blockingRead now => exact presentBlockingRead_withBlock now b { s with inputs := rest }
    | callerTurn => exact callerTurn_withBlock _ b { s with inputs := rest }
    | reset => rfl

theorem settleCaller_withBlock (role : Role) (b : Block) (s : State) :
    settleCaller role (withBlock b s) = withBlock b (settleCaller role s) := by
  unfold settleCaller
  simp only [withBlock]
  (repeat' split) <;> rfl

theorem sameButHidden_refl (s : State) : sameButHidden s s := ⟨rfl, rfl, rfl, rfl, rfl, fun _ => rfl⟩

/-- In a terminal status, blocks with equal readable fields are related whatever their hidden fields. -/
theorem sameButHidden_complete {s : State} {b c : Block} (o : Option Output) (acts : List Action)
    (hidle : isIdle b.status = true) (hst : c.status = b.status) (hres : c.result = b.result)
    (htemp : c.temperature = b.temperature) (hhum : c.humidity = b.humidity) :
    sameButHidden (complete s b o acts) (complete s c o acts) :=
  ⟨rfl, hst, hres, htemp, hhum, fun hbusy => absurd hidle (by simp_all)⟩

/-- Every operation takes related states in a terminal status to related states. -/
theorem sameButHidden_afterOperation (op : Operation) (now : Micros) {s : State} {b : Block}
    (hidle : isIdle s.block.status = true) (hst : b.status = s.block.status) (hres : b.result = s.block.result)
    (htemp : b.temperature = s.block.temperature) (hhum : b.humidity = s.block.humidity) :
    sameButHidden (afterOperation op now s) (afterOperation op now (withBlock b s)) := by
  have hidle' : isIdle b.status = true := by rw [hst, hidle]
  cases op with
  | edge =>
    change sameButHidden (complete s (edgeBlock s.params now s.block) none [])
      (complete s (edgeBlock s.params now b) none [])
    rw [edgeBlock_idle hidle, edgeBlock_idle hidle']
    exact sameButHidden_complete (b := stampEdge now s.block) (c := stampEdge now b) none [] hidle hst hres htemp hhum
  | caller c =>
    by_cases hstart : c = .start
    · have harmed : armAttempt now b = armAttempt now s.block := by ext1 <;> simp [hres, htemp, hhum]
      have hsame : afterOperation (.caller .start) now (withBlock b s) = afterOperation (.caller .start) now s := by
        simp only [afterOperation, withBlock, hidle, hidle', if_true, harmed]
        rfl
      rw [hstart, hsame]
      exact sameButHidden_refl _
    · have hvalue : accessorValue c b = accessorValue c s.block := by
        cases c <;> simp [accessorValue, hst, hres, htemp, hhum]
      rw [afterOperation_accessor hstart, afterOperation_accessor hstart]
      change sameButHidden _ (complete s b (accessorValue c b) [])
      rw [hvalue]
      exact sameButHidden_complete _ [] hidle hst hres htemp hhum

theorem sameButHidden_settleCaller (role : Role) {s t : State} (h : sameButHidden s t) :
    sameButHidden (settleCaller role s) (settleCaller role t) := by
  obtain ⟨ht, hrest⟩ := h
  have hsettled : settleCaller role t = withBlock t.block (settleCaller role s) := by
    rw [← settleCaller_withBlock]
    exact congrArg (settleCaller role) ht
  refine ⟨?_, ?_⟩
  · rw [hsettled]
    rfl
  · rw [settleCaller_block, settleCaller_block]
    exact hrest

theorem outcomeRel_refl {R : State → State → Prop} (hR : ∀ s, R s s) (o : Outcome State Fault Refusal) :
    outcomeRel R o o := by
  cases o with
  | next s => exact hR s
  | fault f => rfl
  | refused r => rfl

/-- One step of two machines that differ in the block only, related in a terminal status. -/
theorem step_withBlock_related {s : State} {b : Block} (hidle : isIdle s.block.status = true)
    (hst : b.status = s.block.status) (hres : b.result = s.block.result)
    (htemp : b.temperature = s.block.temperature) (hhum : b.humidity = s.block.humidity) :
    outcomeRel sameButHidden (step s) (step (withBlock b s)) := by
  have hfetched := fetch_withBlock hst
  cases hf : fetch s with
  | stop r =>
    rw [hf] at hfetched
    rw [step, step, hf, hfetched]
    exact rfl
  | reset s' =>
    rw [hf] at hfetched
    rw [step, step, hf, hfetched]
    exact sameButHidden_refl _
  | issue role w s' =>
    rw [hf] at hfetched
    have hblock : s'.block = s.block := by
      obtain ⟨hs', -⟩ := fetch_issue hf
      rw [hs']
    rw [← hblock] at hidle hst hres htemp hhum
    cases hop : operationOf (opField w) with
    | none =>
      simp only [step, hf, hfetched, mapFetched, decode, hop, rejectWord]
      exact rfl
    | some op =>
      have hidle' : isIdle b.status = true := by rw [hst, hidle]
      rw [step_of_fetch hf hop, step_of_fetch hfetched hop, exec_formOf (cursorFits_of_idle hidle),
        exec_formOf (s := withBlock b s') (cursorFits_of_idle hidle')]
      exact sameButHidden_settleCaller role (sameButHidden_afterOperation op _ hidle hst hres htemp hhum)

/-- Settles O39: in an attempt the relation is equality; in a terminal status every operation runs, writes the
hidden fields without reading them into anything else, and hands out readable fields only. -/
theorem hiddenFieldsAreUnobservableWhenIdle : Obligations.HiddenFieldsAreUnobservableWhenIdle := by
  rintro s t ⟨ht, hst, hres, htemp, hhum, hattempt⟩
  rw [ht]
  cases hidle : isIdle s.block.status with
  | false =>
    rw [hattempt hidle]
    exact outcomeRel_refl sameButHidden_refl (step s)
  | true => exact step_withBlock_related hidle hst hres htemp hhum

end Sys2Proof.Machine
end

section
/-! Runs (20_memory.md R63, 41_edge_state_machine.md R132, the whole decoder): a pending operation is one step,
and a list of pending edges is a fold over the block. -/

namespace Sys2Proof.Machine

open Host

/-- The step on the word of an operation that its agent may issue. -/
theorem step_wordOf {s : State} {op : Operation} {now : Micros} {rest : List Event}
    (hin : s.inputs = .word (wordOf op now) :: rest) (hfree : s.caller = .idle ∨ op = .edge)
    (hfits : cursorFits s.block) :
    step s = .next (afterOperation op now { s with inputs := rest }) := by
  have hword : s.caller = .idle ∨ isCallerWord (wordOf op now) = false :=
    hfree.imp_right fun h => by rw [h, isCallerWord_edge]
  have hop : operationOf (opField (wordOf op now)) = some op := by rw [opField_wordOf, operationOf_opCode]
  rw [step_of_fetch (fetch_word hin hword) hop, nowField_wordOf, finish_direct]
  exact exec_formOf (s := { s with inputs := rest }) hfits op now

/-- One step of a run, and the rest of it. -/
theorem runSteps_succ_of_step {n : Nat} {s t : State} (h : step s = .next t) :
    runSteps (n + 1) s = runSteps n t := by
  rw [runSteps, h]

/-- The fields that edges and accessors keep in a terminal status: all that a caller can read, and the bytes. -/
def sameReadable (b c : Block) : Prop :=
  c.status = b.status ∧ c.result = b.result ∧ c.temperature = b.temperature ∧ c.humidity = b.humidity ∧
    c.data = b.data

theorem sameReadable_trans {a b c : Block} (h : sameReadable a b) (h' : sameReadable b c) : sameReadable a c := by
  obtain ⟨h1, h2, h3, h4, h5⟩ := h
  obtain ⟨h1', h2', h3', h4', h5'⟩ := h'
  exact ⟨h1'.trans h1, h2'.trans h2, h3'.trans h3, h4'.trans h4, h5'.trans h5⟩

theorem sameReadable_afterOperation_of_idle {op : Operation} (hop : op ≠ .caller .start) (now : Micros) {s : State}
    (h : isIdle s.block.status = true) : sameReadable s.block (afterOperation op now s).block := by
  obtain hb | hb := afterOperation_block_of_idle hop now h <;> rw [hb] <;> exact ⟨rfl, rfl, rfl, rfl, rfl⟩

/-- Any number of edges and accessors in a terminal status run, and keep the readable fields and the bytes. -/
theorem runSteps_of_idle (n : Nat) {s : State} (hcaller : s.caller = .idle) (hidle : isIdle s.block.status = true)
    (hn : n ≤ s.inputs.length)
    (hwords : ∀ e ∈ s.inputs, ∃ op now, e = .word (wordOf op now) ∧ op ≠ .caller .start) :
    ∃ t, runSteps n s = .next t ∧ sameReadable s.block t.block := by
  induction n generalizing s with
  | zero => exact ⟨s, rfl, rfl, rfl, rfl, rfl, rfl⟩
  | succ n ih =>
    cases hin : s.inputs with
    | nil => rw [hin] at hn; cases hn
    | cons e rest =>
      rw [hin] at hn hwords
      obtain ⟨op, now, rfl, hop⟩ := hwords e List.mem_cons_self
      have hstep := step_wordOf hin (.inl hcaller) (cursorFits_of_idle hidle)
      have hkept := sameReadable_afterOperation_of_idle hop now (s := { s with inputs := rest }) hidle
      have hrest : (afterOperation op now { s with inputs := rest }).inputs = rest := afterOperation_inputs _ _ _
      obtain ⟨t, hrun, ht⟩ := ih (s := afterOperation op now { s with inputs := rest })
        (by rw [afterOperation_caller]; exact hcaller) (by rw [hkept.1]; exact hidle)
        (by rw [hrest]; exact Nat.le_of_succ_le_succ hn)
        (by rw [hrest]; exact fun e he => hwords e (List.mem_cons_of_mem _ he))
      exact ⟨t, by rw [runSteps_succ_of_step hstep, hrun], sameReadable_trans hkept ht⟩

/-- Settles O45: the run keeps the readable fields, and the invariant says what the result of Done is. -/
theorem terminalStatusIsStableWithoutStart : Obligations.TerminalStatusIsStableWithoutStart := by
  intro n s hsafe hcaller hidle hn hwords
  obtain ⟨t, hrun, hst, hres, htemp, hhum, hdata⟩ := runSteps_of_idle n hcaller hidle hn hwords
  refine ⟨t, hrun, hst, hres, htemp, hhum, hdata, fun hdone => ?_⟩
  obtain ⟨-, -, -, ⟨hok, -⟩, -⟩ := hsafe
  rw [hres, (hok hdone).1]

/-! A list of edges. -/

/-- The block after edges with the given clock samples, in order. -/
def edgeBlocks (p : Params) (nows : List Micros) (b : Block) : Block :=
  nows.foldl (fun c now => edgeBlock p now c) b

@[simp] theorem edgeBlocks_cons (p : Params) (now : Micros) (nows : List Micros) (b : Block) :
    edgeBlocks p (now :: nows) b = edgeBlocks p nows (edgeBlock p now b) := rfl

/-- Pending edges all run from a safe state, whatever their clock samples and the caller's phase. -/
theorem runSteps_edges (nows : List Micros) {s : State} {rest : List Event} (hsafe : SafeState s)
    (hin : s.inputs = nows.map (fun now => .word (wordOf .edge now)) ++ rest) :
    ∃ t, runSteps nows.length s = .next t ∧ t.block = edgeBlocks s.params nows s.block := by
  induction nows generalizing s with
  | nil => exact ⟨s, rfl, rfl⟩
  | cons now nows ih =>
    have hstep := step_wordOf hin (.inr rfl) hsafe.cursorFits
    obtain ⟨t, hrun, hblock⟩ := ih (everyStepKeepsTheInvariant _ _ hsafe hstep) rfl
    exact ⟨t, by rw [List.length_cons, runSteps_succ_of_step hstep, hrun], hblock⟩

/-! At most 41 edges. -/

/-- All that an edge can leave, by the status before it. -/
theorem edgeBlock_outcomes (p : Params) (now : Micros) {b : Block} (h : cursorFits b) :
    (b.status = .wakingUp ∧ edgeBlock p now b = setStatus .reading (stampEdge now b)) ∨
    (b.status = .reading ∧ ∃ bit, receiveBit bit (stampEdge now b) = .next (edgeBlock p now b)) ∨
    (isIdle b.status = false ∧ ∃ e, edgeBlock p now b = raiseError e (stampEdge now b)) ∨
    (isIdle b.status = true ∧ edgeBlock p now b = stampEdge now b) := by
  have heffect := edgeEffect_classify (p := p) (now := now) h
  obtain ⟨hack, hbit, hnone⟩ := classify_status (p := p) (st := b.status) (e := elapsed now b) rfl
  cases hsymbol : classify p b.status (elapsed now b) with rw [hsymbol] at heffect hack hbit hnone
  | ackOk => exact .inl ⟨hack (by simp), (Outcome.next.inj heffect).symm⟩
  | ackBad =>
    exact .inr (.inr (.inl ⟨by rw [hack (by simp)]; rfl, _, (Outcome.next.inj heffect).symm⟩))
  | bit0 => exact .inr (.inl ⟨hbit (by simp), false, heffect⟩)
  | bit1 => exact .inr (.inl ⟨hbit (by simp), true, heffect⟩)
  | bitBad =>
    exact .inr (.inr (.inl ⟨by rw [hbit (by simp)]; rfl, _, (Outcome.next.inj heffect).symm⟩))
  | noSymbol =>
    exact .inr (.inr (.inr ⟨(isIdle_eq_true_iff _).2 (hnone rfl).symm, (Outcome.next.inj heffect).symm⟩))

/-- Where an attempt can stand `k` edges after it was armed: one edge is the acknowledgement, each later one a
bit, and success takes all 41. -/
def standsAfterEdges (k : Nat) (b : Block) : Prop :=
  match b.status with
  | .wakingUp => k = 0 ∧ position b = 0
  | .reading => k = position b + 1 ∧ position b < frameBits
  | .done => 41 ≤ k
  | .invalid => True

theorem standsAfterEdges_wakingUp {k : Nat} {b : Block} (hst : b.status = .wakingUp) :
    standsAfterEdges k b ↔ k = 0 ∧ position b = 0 := by rw [standsAfterEdges, hst]

theorem standsAfterEdges_reading {k : Nat} {b : Block} (hst : b.status = .reading) :
    standsAfterEdges k b ↔ k = position b + 1 ∧ position b < frameBits := by rw [standsAfterEdges, hst]

theorem standsAfterEdges_done {k : Nat} {b : Block} (hst : b.status = .done) :
    standsAfterEdges k b ↔ 41 ≤ k := by rw [standsAfterEdges, hst]

theorem standsAfterEdges_invalid {k : Nat} {b : Block} (hst : b.status = .invalid) : standsAfterEdges k b := by
  rw [standsAfterEdges, hst]
  trivial

theorem standsAfterEdges_edgeBlock {k : Nat} {b : Block} (p : Params) (now : Micros) (h : standsAfterEdges k b) :
    standsAfterEdges (k + 1) (edgeBlock p now b) := by
  have hfits : cursorFits b := fun hst => byteIndex_le_four_iff.2 ((standsAfterEdges_reading hst).1 h).2
  obtain ⟨hst, hb⟩ | ⟨hst, bit, hb⟩ | ⟨-, e, hb⟩ | ⟨hidle, hb⟩ := edgeBlock_outcomes p now hfits
  · obtain ⟨rfl, hposition⟩ := (standsAfterEdges_wakingUp hst).1 h
    have hposition' : position (edgeBlock p now b) = 0 := by rw [hb]; exact hposition
    rw [standsAfterEdges_reading (by rw [hb]; rfl), hposition']
    exact ⟨rfl, by decide⟩
  · obtain ⟨hk, -⟩ := (standsAfterEdges_reading hst).1 h
    obtain ⟨hposition, ha⟩ | ⟨hlast, -, ha⟩ | ⟨-, ha⟩ := receiveBit_outcomes hb
    · rw [position_stampEdge] at hposition
      have hnext : position (edgeBlock p now b) = position b + 1 := by
        rw [ha, position_accumulate bit (b := stampEdge now b)
          (byteIndex_le_four_iff.2 (Nat.lt_succ_of_lt hposition)), position_stampEdge]
      rw [standsAfterEdges_reading (by rw [ha, accumulate_status]; exact hst), hnext]
      exact ⟨by rw [hk], Nat.succ_lt_succ hposition⟩
    · rw [standsAfterEdges_done (by rw [ha]; rfl), hk]
      rw [position_stampEdge] at hlast
      omega
    · exact standsAfterEdges_invalid (by rw [ha]; rfl)
  · exact standsAfterEdges_invalid (by rw [hb]; rfl)
  · obtain hst | hst := (isIdle_eq_true_iff _).1 hidle
    · exact standsAfterEdges_invalid (by rw [hb]; exact hst)
    · rw [standsAfterEdges_done (by rw [hb]; exact hst)]
      exact Nat.le_succ_of_le ((standsAfterEdges_done hst).1 h)

theorem standsAfterEdges_edgeBlocks {k : Nat} {b : Block} (p : Params) (nows : List Micros)
    (h : standsAfterEdges k b) : standsAfterEdges (k + nows.length) (edgeBlocks p nows b) := by
  induction nows generalizing k b with
  | nil => exact h
  | cons now nows ih =>
    have hrest := ih (standsAfterEdges_edgeBlock p now h)
    rwa [Nat.add_right_comm] at hrest

theorem isIdle_of_standsAfterEdges_41 {b : Block} (h : standsAfterEdges 41 b) : isIdle b.status = true := by
  cases hst : b.status with
  | wakingUp => exact absurd ((standsAfterEdges_wakingUp hst).1 h).1 (by decide)
  | reading =>
    obtain ⟨hk, hposition⟩ := (standsAfterEdges_reading hst).1 h
    unfold frameBits at hposition
    omega
  | done => rfl
  | invalid => rfl

/-- Settles O46: the pending edges run, and leave the block where an attempt can stand after that many. -/
theorem attemptEndsWithin41Edges : Obligations.AttemptEndsWithin41Edges := by
  intro s nows rest hsafe hst hin
  have hstart : standsAfterEdges 0 s.block := by
    obtain ⟨-, ⟨-, hwaking, -⟩, -⟩ := hsafe
    obtain ⟨hbyte, hbit, -⟩ := hwaking hst
    exact (standsAfterEdges_wakingUp hst).2 ⟨rfl, by rw [position_of_bitIndex_seven hbit, hbyte]; rfl⟩
  obtain ⟨t, hrun, hblock⟩ := runSteps_edges nows hsafe hin
  have hend := standsAfterEdges_edgeBlocks s.params nows hstart
  rw [← hblock, Nat.zero_add] at hend
  refine ⟨fun hall => ⟨t, ?_, ?_⟩, fun hfew => ⟨t, hrun, fun hdone => ?_⟩⟩
  · rw [← hall, hrun]
  · rw [hall] at hend
    exact isIdle_of_standsAfterEdges_41 hend
  · have hmany := (standsAfterEdges_done hdone).1 hend
    omega

/-! Intervals. -/

/-- The clock samples of edges with the given intervals after `prev` (R96). -/
def sampleTimes (prev : Micros) : List Micros → List Micros
  | [] => []
  | d :: ds => (prev + d) :: sampleTimes (prev + d) ds

theorem expandTrace_edgeAfter (prev : Micros) (ds : List Micros) :
    expandTrace prev (ds.map .edgeAfter) = (sampleTimes prev ds).map (fun now => .word (wordOf .edge now)) := by
  induction ds generalizing prev with
  | nil => rfl
  | cons d ds ih => rw [List.map_cons, expandTrace, ih]; rfl

theorem length_sampleTimes (prev : Micros) (ds : List Micros) : (sampleTimes prev ds).length = ds.length := by
  induction ds generalizing prev with
  | nil => rfl
  | cons d ds ih => rw [sampleTimes, List.length_cons, List.length_cons, ih]

theorem elapsed_add (d : Micros) (b : Block) : elapsed (b.lastEdgeTimestamp + d) b = d :=
  add_sub_cancel_left b.lastEdgeTimestamp d

/-- The block an attempt reads into, its acknowledgement `d` after the START (R123). -/
def acknowledged (d : Micros) (b : Block) : Block :=
  setStatus .reading (stampEdge (b.lastEdgeTimestamp + d) b)

@[simp] theorem position_acknowledged (d : Micros) (b : Block) : position (acknowledged d b) = position b := rfl

theorem edgeBlock_acknowledge {p : Params} {d : Micros} {b : Block} (hst : b.status = .wakingUp)
    (hmin : p.ackMin ≤ d) (hmax : d ≤ p.ackMax) :
    edgeBlock p (b.lastEdgeTimestamp + d) b = acknowledged d b := by
  have hsymbol : classify p b.status (elapsed (b.lastEdgeTimestamp + d) b) = .ackOk := by
    rw [elapsed_add]
    exact classify_eq_ackOk_iff.2 ⟨hst, hmin, hmax⟩
  rw [edgeBlock, hsymbol]
  rfl

/-- The bit the threshold reads from an interval in the window (R83). -/
def pulseBit (p : Params) (d : Micros) : Bool := decide (p.bitThreshold < d)

theorem receiveBit_pulse {p : Params} {d : Micros} {b : Block} (hst : b.status = .reading)
    (hinside : b.byteIndex ≤ 4) (hmin : p.bitMin ≤ d) (hmax : d ≤ p.bitMax) :
    receiveBit (pulseBit p d) (stampEdge (b.lastEdgeTimestamp + d) b) =
      .next (edgeBlock p (b.lastEdgeTimestamp + d) b) := by
  have heffect := edgeEffect_classify (p := p) (now := b.lastEdgeTimestamp + d) (fun _ => hinside)
  rw [elapsed_add, hst, classify_reading, if_pos ⟨hmin, hmax⟩] at heffect
  rw [← heffect, pulseBit]
  by_cases hthreshold : p.bitThreshold < d
  · rw [if_pos hthreshold, decide_eq_true hthreshold]
    rfl
  · rw [if_neg hthreshold, decide_eq_false hthreshold]
    rfl

theorem edgeBlock_pulse_before_last {p : Params} {d : Micros} {b : Block} (hst : b.status = .reading)
    (hposition : position b < 39) (hmin : p.bitMin ≤ d) (hmax : d ≤ p.bitMax) :
    edgeBlock p (b.lastEdgeTimestamp + d) b =
      accumulate (pulseBit p d) (stampEdge (b.lastEdgeTimestamp + d) b) := by
  have hinside : b.byteIndex ≤ 4 := byteIndex_le_four_iff.2 (Nat.lt_succ_of_lt hposition)
  have hreceive := receiveBit_pulse hst hinside hmin hmax
  rw [receiveBit_before_last _ (by rwa [position_stampEdge])] at hreceive
  exact (Outcome.next.inj hreceive).symm

theorem edgeBlock_pulse_at_last {p : Params} {d : Micros} {b : Block} (hst : b.status = .reading)
    (hposition : position b = 39) (hmin : p.bitMin ≤ d) (hmax : d ≤ p.bitMax) :
    edgeBlock p (b.lastEdgeTimestamp + d) b =
      frameEnd (accumulate (pulseBit p d) (stampEdge (b.lastEdgeTimestamp + d) b)) := by
  have hinside : b.byteIndex ≤ 4 := byteIndex_le_four_iff.2 (by rw [hposition]; decide)
  have hreceive := receiveBit_pulse hst hinside hmin hmax
  rw [receiveBit_at_last _ (by rwa [position_stampEdge])] at hreceive
  exact (Outcome.next.inj hreceive).symm

/-- The timestamp is written apart from what `Accumulate` writes. -/
theorem accumulate_stampEdge (bit : Bool) (now : Micros) (b : Block) :
    accumulate bit (stampEdge now b) = stampEdge now (accumulate bit b) := by
  have hstore : storeBit bit (stampEdge now b) = stampEdge now (storeBit bit b) := by cases bit <;> rfl
  rw [accumulate, accumulate, hstore, cursorAdvance, cursorAdvance, stampEdge_bitIndex]
  split <;> rfl

theorem accumulateAll_stampEdge (bits : List Bool) (now : Micros) (b : Block) :
    accumulateAll bits (stampEdge now b) = stampEdge now (accumulateAll bits b) := by
  induction bits generalizing b with
  | nil => rfl
  | cons bit bits ih => rw [accumulateAll_cons, accumulate_stampEdge, ih, accumulateAll_cons]

/-- In-window pulses up to the 40th position leave the frame end of their bits. -/
theorem edgeBlocks_pulses {p : Params} {ds : List Micros} {b : Block} (hne : ds ≠ [])
    (hst : b.status = .reading) (hposition : position b + ds.length = frameBits)
    (hwindow : ∀ d ∈ ds, p.bitMin ≤ d ∧ d ≤ p.bitMax) :
    ∃ now, edgeBlocks p (sampleTimes b.lastEdgeTimestamp ds) b =
      frameEnd (stampEdge now (accumulateAll (ds.map (pulseBit p)) b)) := by
  induction ds generalizing b with
  | nil => exact absurd rfl hne
  | cons d ds ih =>
    obtain ⟨hmin, hmax⟩ := hwindow d List.mem_cons_self
    rw [sampleTimes, edgeBlocks_cons, List.map_cons, accumulateAll_cons]
    cases ds with
    | nil =>
      have hlast : position b = 39 := Nat.succ.inj hposition
      exact ⟨b.lastEdgeTimestamp + d, by
        rw [edgeBlock_pulse_at_last hst hlast hmin hmax, accumulate_stampEdge]; rfl⟩
    | cons d' ds =>
      rw [List.length_cons, List.length_cons] at hposition
      unfold frameBits at hposition
      have hbefore : position b < 39 := by omega
      rw [edgeBlock_pulse_before_last hst hbefore hmin hmax, accumulate_stampEdge]
      have hnext := position_accumulate (pulseBit p d) (b := b)
        (byteIndex_le_four_iff.2 (Nat.lt_succ_of_lt hbefore))
      obtain ⟨now, hrest⟩ := ih (b := stampEdge (b.lastEdgeTimestamp + d) (accumulate (pulseBit p d) b)) (by simp)
        (by rw [stampEdge_status, accumulate_status, hst])
        (by rw [position_stampEdge, hnext, List.length_cons]; unfold frameBits; omega)
        (fun e he => hwindow e (List.mem_cons_of_mem d he))
      rw [accumulateAll_stampEdge] at hrest
      exact ⟨now, hrest⟩

/-- Bits received into a cleared accumulator are the frame bits. -/
theorem frameBit_accumulateAll_cleared {bits : List Bool} {b : Block} (hdata : b.data = zeroData)
    (hposition : position b = 0) (hlen : bits.length ≤ frameBits) (k : Nat) :
    frameBit (accumulateAll bits b).data k = bits.getD k false := by
  rw [frameBit_accumulateAll (by rw [hposition, Nat.zero_add]; exact hlen), hdata, hposition]
  simp

/-- Past the end of the pulses both sides read no bit. -/
theorem getD_map_pulseBit (p : Params) (ds : List Micros) (k : Nat) :
    (ds.map (pulseBit p)).getD k false = pulseBit p (ds.getD k 0) := by
  have hzero : pulseBit p 0 = false := by simp [pulseBit]
  rw [← hzero, List.getD_map]

/-- The frame end in numbers: published values on a match, the error and the old values without one. -/
theorem frameEnd_in_numbers (b : Block) :
    let d := fun i => (byteOf b.data i).toNat
    if (d 0 + d 1 + d 2 + d 3) % 256 = d 4 then
      (frameEnd b).status = .done ∧ (frameEnd b).result = .ok ∧
      (frameEnd b).humidity.toNat = d 0 * 256 + d 1 ∧
      (frameEnd b).temperature.toInt = (if 128 ≤ d 2 then (-1 : Int) else 1) * ((d 2 % 128 * 256 + d 3 : Nat) : Int)
    else
      (frameEnd b).status = .invalid ∧ (frameEnd b).result = .checksumMismatch ∧
      (frameEnd b).humidity = b.humidity ∧ (frameEnd b).temperature = b.temperature := by
  intro d
  have hchecksum : checksumOk b.data = true ↔ (d 0 + d 1 + d 2 + d 3) % 256 = d 4 :=
    (checksumOk_iff_toNat b.data).trans eq_comm
  split
  next hmatch =>
    rw [frameEnd_of_match (hchecksum.2 hmatch)]
    exact ⟨rfl, rfl, humidityIsHighByteFirst b.data, (temperatureIsSignAndMagnitude b.data).1⟩
  next hmismatch =>
    rw [frameEnd_of_mismatch (mt hchecksum.1 hmismatch)]
    exact ⟨rfl, rfl, rfl, rfl⟩

/-- An acknowledgement and forty in-window pulses leave the frame end of the pulses' bits, received into the
cleared accumulator. -/
theorem edgeBlocks_frame {p : Params} {ack : Micros} {pulses : List Micros} {b : Block}
    (hst : b.status = .wakingUp) (hposition : position b = 0) (hlen : pulses.length = 40)
    (hackMin : p.ackMin ≤ ack) (hackMax : ack ≤ p.ackMax)
    (hwindow : ∀ d ∈ pulses, p.bitMin ≤ d ∧ d ≤ p.bitMax) :
    ∃ now, edgeBlocks p (sampleTimes b.lastEdgeTimestamp (ack :: pulses)) b =
      frameEnd (stampEdge now (accumulateAll (pulses.map (pulseBit p)) (acknowledged ack b))) := by
  rw [sampleTimes, edgeBlocks_cons, edgeBlock_acknowledge hst hackMin hackMax]
  exact edgeBlocks_pulses (b := acknowledged ack b) (List.ne_nil_of_length_eq_add_one hlen) rfl
    (by rw [position_acknowledged, hposition, hlen]) hwindow

/-- Settles O47: the acknowledgement and the pulses run as one fold, which ends in the frame end of the bits the
threshold reads. -/
theorem fortyPulsesDecodeToTheFrame : Obligations.FortyPulsesDecodeToTheFrame := by
  intro s ack pulses hsafe hst hin hlen hackMin hackMax hwindow
  rw [expandTrace_edgeAfter, ← List.append_nil (List.map _ _)] at hin
  obtain ⟨t, hrun, hblock⟩ := runSteps_edges _ hsafe hin
  rw [length_sampleTimes, List.length_cons, hlen] at hrun
  obtain ⟨-, ⟨-, hwaking, -⟩, -⟩ := hsafe
  obtain ⟨hbyte, hbit, hdata⟩ := hwaking hst
  have hposition : position s.block = 0 := by
    rw [position_of_bitIndex_seven hbit, hbyte]
    rfl
  obtain ⟨now, hframe⟩ := edgeBlocks_frame hst hposition hlen hackMin hackMax hwindow
  rw [hframe] at hblock
  refine ⟨t, hrun, fun k _ => ?_, ?_⟩
  · rw [hblock, frameEnd_data, stampEdge_data, frameBit_accumulateAll_cleared (b := acknowledged ack s.block)
      hdata hposition (by rw [List.length_map, hlen]), getD_map_pulseBit]
    rfl
  · have hend := frameEnd_in_numbers
      (stampEdge now (accumulateAll (pulses.map (pulseBit s.params)) (acknowledged ack s.block)))
    rw [← frameEnd_data, ← hblock, stampEdge_humidity, stampEdge_temperature, accumulateAll_frame] at hend
    exact hend

end Sys2Proof.Machine
end

section
/-! The caller and BLOCKING_READ (40_start_and_blocking_read.md R114, R115, 93_implementation_defined.md U14):
its requests one at a time. -/

namespace Sys2Proof.Machine

open Host

theorem step_of_fetch_stop {s : State} {r : Refusal} (h : fetch s = .stop r) : step s = .refused r := by
  rw [step, h]

/-- An operation of the caller that is fetched runs, in every state. -/
theorem step_of_fetch_caller {s s' : State} {role : Role} {op : CallerOp} {now : Micros}
    (h : fetch s = .issue role (callerWord op now) s') :
    step s = .next (settleCaller role (afterOperation (.caller op) now s')) := by
  rw [step_of_fetch h (operationOf_opField_callerWord op now), exec_formOf_caller]
  cases op <;> simp [callerWord, finish, afterOperation]

/-- The operation a request issues in the caller's phase (R114). -/
def requestOp (req : CallerRequest) (phase : CallerPhase) : CallerOp :=
  match req with
  | .op op => op
  | .blockingRead => .start
  | .turn => if phase = .polling then .state else .lastResult

/-- The part that operation plays for the caller (R114). -/
def requestRole (req : CallerRequest) (phase : CallerPhase) : Role :=
  match req with
  | .op _ => .direct
  | .blockingRead => .blockingStart
  | .turn => if phase = .polling then .poll else .collect

/-- What a request leaves when the caller's phase allows it. -/
def afterRequest (req : CallerRequest) (now : Micros) (s : State) : State :=
  settleCaller (requestRole req s.caller) (afterOperation (.caller (requestOp req s.caller)) now s)

theorem presentRequest_eq_issue {req : CallerRequest} {s : State} (now : Micros)
    (h : requestRefusal req s.caller = none) :
    presentRequest req now s =
      .issue (requestRole req s.caller) (callerWord (requestOp req s.caller) now) s := by
  obtain ⟨role, op, hpresent, hrole⟩ := presentRequest_of_allowed now h
  rw [hpresent]
  obtain ⟨rfl, rfl, -⟩ | ⟨rfl, rfl, rfl, -⟩ | ⟨rfl, rfl, rfl, hc⟩ | ⟨rfl, rfl, rfl, hc⟩ := hrole
  · rfl
  · rfl
  · rw [hc]
    rfl
  · rw [hc]
    rfl

/-- A request is fetched as it is presented. -/
theorem fetch_requestEvent {s : State} {req : CallerRequest} {now : Micros} {rest : List Event}
    (hin : s.inputs = requestEvent req now :: rest) :
    fetch s = presentRequest req now { s with inputs := rest } := by
  unfold fetch
  rw [hin]
  cases req <;> rfl

/-- The step on a request that the caller's phase allows. -/
theorem step_request {s : State} {req : CallerRequest} {now : Micros} {rest : List Event}
    (hin : s.inputs = requestEvent req now :: rest) (hallowed : requestRefusal req s.caller = none) :
    step s = .next (afterRequest req now { s with inputs := rest }) :=
  step_of_fetch_caller ((fetch_requestEvent hin).trans
    (presentRequest_eq_issue (s := { s with inputs := rest }) now hallowed))

theorem requestRefusal_idle {req : CallerRequest} {phase : CallerPhase} (hreq : req ≠ .turn) (h : phase = .idle) :
    requestRefusal req phase = none := by
  cases req with
  | turn => exact absurd rfl hreq
  | op op => exact if_pos h
  | blockingRead => exact if_pos h

theorem requestRefusal_busy {req : CallerRequest} {phase : CallerPhase} (hreq : req ≠ .turn) (h : phase ≠ .idle) :
    requestRefusal req phase = some .callerBusy := by
  cases req with
  | turn => exact absurd rfl hreq
  | op op => exact if_neg h
  | blockingRead => exact if_neg h

theorem requestRefusal_turn {phase : CallerPhase} (h : phase ≠ .idle) : requestRefusal .turn phase = none := if_neg h

/-! The turns. -/

/-- A turn is fetched from its event, or from an empty list of inputs. -/
theorem fetch_turn {s : State} {rest : List Event}
    (hin : s.inputs = .callerTurn :: rest ∨ s.inputs = [] ∧ rest = []) :
    ∃ r, fetch s = callerTurn r { s with inputs := rest } := by
  unfold fetch
  obtain hin | ⟨hin, rfl⟩ := hin
  · exact ⟨.callerIdle, by rw [hin]⟩
  · rw [hin]
    exact ⟨.noEvent, congrArg (callerTurn .noEvent) (by rw [← hin])⟩

theorem callerTurn_eq_presentRequest {s : State} (r : Refusal) (now : Micros) (h : s.caller ≠ .idle) :
    callerTurn r s = presentRequest .turn now s := by
  unfold presentRequest callerTurn
  cases hc : s.caller with
  | idle => exact absurd hc h
  | polling => rfl
  | collecting => rfl

theorem step_turn {s : State} {rest : List Event} (hin : s.inputs = .callerTurn :: rest ∨ s.inputs = [] ∧ rest = [])
    (h : s.caller ≠ .idle) : step s = .next (afterRequest .turn 0 { s with inputs := rest }) := by
  obtain ⟨r, hfetch⟩ := fetch_turn hin
  rw [callerTurn_eq_presentRequest (s := { s with inputs := rest }) r 0 h,
    presentRequest_eq_issue (s := { s with inputs := rest }) 0 (requestRefusal_turn h)] at hfetch
  exact step_of_fetch_caller hfetch

/-- A turn of the polling caller is a STATE, and ends the loop on a terminal status. -/
theorem afterRequest_turn_polling {s : State} (now : Micros) (h : s.caller = .polling) :
    afterRequest .turn now s =
      { complete s s.block (some (.status s.block.status)) [] with
        caller := if isIdle s.block.status then .collecting else .polling } := by
  rw [afterRequest, h]
  change settleCaller .poll (complete s s.block (some (.status s.block.status)) []) = _
  rw [settleCaller_poll]
  cases isIdle s.block.status with
  | true => rfl
  | false => ext1 <;> simp [h]

/-- A turn of the collecting caller is the LAST_RESULT that BLOCKING_READ returns. -/
theorem afterRequest_turn_collecting {s : State} (now : Micros) (h : s.caller = .collecting) :
    afterRequest .turn now s =
      { complete s s.block (some (.result s.block.result)) [] with
        caller := .idle, blockingReturn := some s.block.result } := by
  rw [afterRequest, h]
  exact settleCaller_collect s s.block s.block.result []

/-- Settles O51: the two turns, from their event or with nothing pending. -/
theorem blockingReadPollsThenReturnsTheResult : Obligations.BlockingReadPollsThenReturnsTheResult := by
  refine fun s rest hin => ⟨fun hc => ?_, fun hc => ?_⟩
  · rw [step_turn hin (by rw [hc]; decide), afterRequest_turn_polling (s := { s with inputs := rest }) 0 hc]
    rfl
  · rw [step_turn hin (by rw [hc]; decide), afterRequest_turn_collecting (s := { s with inputs := rest }) 0 hc]
    rfl

/-- Settles O50: the first request of a BLOCKING_READ is START's form in the state, and the caller's fields are
written after it. -/
theorem blockingReadBeginsWithStart : Obligations.BlockingReadBeginsWithStart := by
  intro s now rest hin hc
  have hstep := step_request (req := .blockingRead) hin (requestRefusal_idle (by simp) hc)
  refine ⟨_, hstep, rfl, rfl, ?_, ?_⟩
  · exact afterOperation_inputs _ now { s with inputs := rest }
  · refine (exec_formOf_caller .start now { s with inputs := rest }).trans (congrArg Outcome.next ?_)
    ext1
    case caller => exact (afterOperation_caller _ _ _).trans hc
    case blockingReturn => exact afterOperation_blockingReturn _ _ _
    all_goals rfl

/-! What the caller's phase refuses (U14). -/

theorem fetch_together_refused {s : State} {req : CallerRequest} {now : Micros} {rest : List Event} {r : Refusal}
    (hin : s.inputs = .together req now :: rest) (h : requestRefusal req s.caller = some r) :
    fetch s = .stop r := by
  have hfetch : fetch s = arbitrate req now { s with inputs := rest } := by simp [fetch, hin]
  rw [hfetch, arbitrate]
  simp only [h]

/-- During a BLOCKING_READ the words below code 6 that are not an EDGE's are the caller's, and are refused. -/
theorem step_word_busy_iff {s : State} {w : EventWord} {rest : List Event} (hc : s.caller ≠ .idle)
    (hin : s.inputs = .word w :: rest) (hcode : w.toNat / 2 ^ 32 < 6) :
    step s = .refused .callerBusy ↔ w.toNat / 2 ^ 32 ≠ 1 := by
  obtain ⟨op, hop⟩ := operationOf_of_code_lt hcode
  constructor
  · intro h hone
    rw [step_of_fetch (fetch_word hin (.inr (isCallerWord_of_code_one hone))) hop, finish_direct] at h
    exact nomatch exec_refused h
  · intro hother
    have hcaller : isCallerWord w = true := by
      cases op with
      | caller c => exact isCallerWord_eq_true_iff.2 ⟨c, hop⟩
      | edge =>
        refine absurd ?_ hother
        rw [← toNat_opField, ← opCode_of_operationOf hop]
        rfl
    have hfetch : fetch s = presentWord w { s with inputs := rest } := by simp [fetch, hin]
    refine step_of_fetch_stop ?_
    rw [hfetch, presentWord, if_pos (by simp [hcaller, hc])]

/-- Settles O53: each refusal is the fetch's, for the request and the caller's phase. -/
theorem oneCallerAtATime : Obligations.OneCallerAtATime := by
  refine fun s now rest => ⟨fun hbusy => ⟨?_, ?_, ?_, ?_⟩, fun hidle => ⟨?_, ?_⟩⟩
  · exact fun w hin hcode => step_word_busy_iff hbusy hin hcode
  · exact fun op hin => step_of_fetch_stop (fetch_together_refused hin (requestRefusal_busy (by simp) hbusy))
  · exact fun hin => step_of_fetch_stop (fetch_together_refused hin (requestRefusal_busy (by simp) hbusy))
  · intro hin
    have hfetch := fetch_requestEvent (req := .blockingRead) hin
    exact step_of_fetch_stop (hfetch.trans (if_neg hbusy))
  · intro hin
    have hfetch := fetch_requestEvent (req := .turn) (now := now) hin
    exact step_of_fetch_stop (hfetch.trans (callerTurn_eq_stop_iff.2 ⟨hidle, rfl⟩))
  · exact fun hin => step_of_fetch_stop (fetch_together_refused hin (if_pos hidle))

/-! The value of a BLOCKING_READ (R115). -/

/-- An edge that leaves a terminal status found it, or leaves the result of an attempt. -/
theorem edgeBlock_result_of_idle {p : Params} {now : Micros} {b : Block} (hfits : cursorFits b)
    (h : isIdle (edgeBlock p now b).status = true) :
    isIdle b.status = true ∧ (edgeBlock p now b).result = b.result ∨ (edgeBlock p now b).result ≠ .none := by
  obtain ⟨-, hb⟩ | ⟨hst, bit, hb⟩ | ⟨-, e, hb⟩ | ⟨hidle, hb⟩ := edgeBlock_outcomes p now hfits
  · rw [hb] at h
    cases h
  · obtain ⟨-, ha⟩ | ⟨-, -, ha⟩ | ⟨-, ha⟩ := receiveBit_outcomes hb
    · rw [ha, accumulate_status, stampEdge_status, hst] at h
      cases h
    · exact .inr (by rw [ha]; nofun)
    · exact .inr (by rw [ha]; nofun)
  · exact .inr (by rw [hb]; cases e <;> nofun)
  · exact .inl ⟨hidle, by rw [hb]; rfl⟩

/-- A START leaves an attempt in flight, whichever form it is. -/
theorem afterOperation_start_not_idle (now : Micros) (s : State) :
    isIdle (afterOperation (.caller .start) now s).block.status = false := by
  cases hidle : isIdle s.block.status with
  | true => simp only [afterOperation, hidle, if_true]; rfl
  | false => simp only [afterOperation, hidle, Bool.false_eq_true, if_false]; exact hidle

/-- Every operation keeps `blockingInv`, whatever part it plays for the caller. -/
theorem blockingInv_after_operation {s : State} {role : Role} {op : Operation} {now : Micros}
    (hfits : cursorFits s.block) (hinv : blockingInv s) (hby : issuedBy s role op) :
    blockingInv (settleCaller role (afterOperation op now s)) := by
  unfold blockingInv
  rw [settleCaller_block]
  cases role with
  | direct =>
    rw [settleCaller_direct, afterOperation_caller]
    intro hbusy hidle
    obtain hfree | rfl := hby
    · exact absurd hfree hbusy
    · obtain ⟨hbefore, hres⟩ | hres := edgeBlock_result_of_idle hfits hidle
      · change (edgeBlock s.params now s.block).result ≠ .none
        rw [hres]
        exact hinv hbusy hbefore
      · exact hres
  | blockingStart =>
    obtain ⟨-, rfl⟩ := hby
    intro _ hidle
    rw [afterOperation_start_not_idle] at hidle
    cases hidle
  | poll =>
    obtain ⟨hpolling, rfl⟩ := hby
    exact fun _ hidle => hinv (by rw [hpolling]; decide) hidle
  | collect =>
    obtain ⟨-, rfl⟩ := hby
    exact fun hbusy => absurd rfl hbusy

/-- Settles O52: the invariant holds after every operation, and the one that ends a BLOCKING_READ returns the
result of a block in a terminal status. -/
theorem blockingReadNeverReturnsNone : Obligations.BlockingReadNeverReturnsNone := by
  intro s t hsafe hinv hnoReset h
  obtain ⟨rest, hin, -⟩ | ⟨s', role, op, now, hs', hby, -, rfl⟩ := step_next_operation hsafe.cursorFits h
  · exact absurd hin (hnoReset rest)
  · have hsafe' : SafeState s' := by
      rw [hs']
      exact hsafe
    have hinv' : blockingInv s' := by
      rw [hs']
      exact hinv
    have hc : s'.caller = s.caller := by rw [hs']
    refine ⟨blockingInv_after_operation hsafe'.cursorFits hinv' hby, fun hcollecting hidle => ?_⟩
    rw [← hc] at hcollecting
    obtain ⟨-, -, hseen⟩ := (safeState_iff s').1 hsafe'
    cases role with
    | direct =>
      rw [settleCaller_direct, afterOperation_caller, hcollecting] at hidle
      cases hidle
    | blockingStart => cases hidle
    | poll =>
      obtain ⟨hpolling, -⟩ := hby
      rw [hcollecting] at hpolling
      cases hpolling
    | collect =>
      obtain ⟨-, rfl⟩ := hby
      exact ⟨_, rfl, hinv' (by rw [hcollecting]; decide) (hseen hcollecting)⟩

end Sys2Proof.Machine
end

section
/-! Two operations in one instant (60_exceptions.md R193): the pair is the two steps in one order or the other. -/

namespace Sys2Proof.Machine

open Host

/-- The state in which a pair's two operations run: the event taken and their order drawn. -/
def pairState (req : CallerRequest) (rest : List Event) (s : State) : State :=
  { s with inputs := rest, draws := (edgeGoesFirst req { s with inputs := rest }).2.draws }

/-! An operation does not read the events still pending. -/

theorem afterOperation_withInputs (op : Operation) (now : Micros) (s : State) (l : List Event) :
    afterOperation op now { s with inputs := l } = { afterOperation op now s with inputs := l } := by
  unfold afterOperation
  split
  · rfl
  · change (if isIdle s.block.status = true then _ else _) = _
    split <;> rfl
  · rfl

theorem settleCaller_withInputs (role : Role) (s : State) (l : List Event) :
    settleCaller role { s with inputs := l } = { settleCaller role s with inputs := l } := by
  unfold settleCaller
  (repeat' split) <;> simp_all

theorem afterRequest_withInputs (req : CallerRequest) (now : Micros) (s : State) (l : List Event) :
    afterRequest req now { s with inputs := l } = { afterRequest req now s with inputs := l } := by
  unfold afterRequest
  rw [afterOperation_withInputs, settleCaller_withInputs]

theorem afterRequest_block (req : CallerRequest) (now : Micros) (s : State) :
    (afterRequest req now s).block = (afterOperation (.caller (requestOp req s.caller)) now s).block :=
  settleCaller_block _ _

@[simp] theorem afterRequest_inputs (req : CallerRequest) (now : Micros) (s : State) :
    (afterRequest req now s).inputs = s.inputs := by
  rw [afterRequest, settleCaller_inputs, afterOperation_inputs]

@[simp] theorem afterRequest_params (req : CallerRequest) (now : Micros) (s : State) :
    (afterRequest req now s).params = s.params := by
  rw [afterRequest, settleCaller_params, afterOperation_params]

/-- The caller's operations leave the cursor where an attempt can go on. -/
theorem cursorFits_afterRequest {req : CallerRequest} {now : Micros} {s : State} (h : cursorFits s.block) :
    cursorFits (afterRequest req now s).block := by
  rw [afterRequest_block]
  by_cases hstart : requestOp req s.caller = .start
  · rw [hstart]
    cases hidle : isIdle s.block.status with
    | true =>
      simp only [afterOperation, hidle, if_true]
      exact cursorFits_of_not_reading (by simp)
    | false => simp only [afterOperation, hidle, Bool.false_eq_true, if_false]; exact h
  · rw [afterOperation_accessor hstart]
    exact h

/-! The pair's two steps. -/

/-- A step depends on what is fetched only. -/
theorem step_eq_of_fetch_eq {s t : State} (h : fetch s = fetch t) : step s = step t := by
  rw [step, step, h]

section
variable {s : State} {req : CallerRequest} {now : Micros} {rest : List Event}
  (hin : s.inputs = .together req now :: rest) (hallowed : requestRefusal req s.caller = none)
include hin hallowed

/-- What is fetched of an allowed pair: its edge with the request as the next event, or the other way round. -/
theorem fetch_pair :
    ((edgeGoesFirst req { s with inputs := rest }).1 = true ∧
      fetch s = fetch { pairState req rest s with
        inputs := .word (wordOf .edge now) :: requestEvent req now :: rest }) ∨
    ((edgeGoesFirst req { s with inputs := rest }).1 = false ∧
      fetch s = fetch { pairState req rest s with
        inputs := requestEvent req now :: .word (wordOf .edge now) :: rest }) := by
  have hfetch : fetch s = arbitrate req now { s with inputs := rest } := by simp [fetch, hin]
  rw [hfetch]
  obtain ⟨r, hr, -⟩ | ⟨-, ⟨hfirst, ha⟩ | ⟨hfirst, ha⟩⟩ := arbitrate_cases req now { s with inputs := rest }
  · exact nomatch hallowed.symm.trans hr
  · exact .inl ⟨hfirst, by rw [ha, fetch_word rfl (.inr (isCallerWord_edge now))]; rfl⟩
  · exact .inr ⟨hfirst, by rw [ha, fetch_requestEvent rfl]; rfl⟩

/-- The two steps of an allowed pair, in the order chosen. -/
theorem step_pair (hfits : cursorFits s.block) :
    ((edgeGoesFirst req { s with inputs := rest }).1 = true ∧
      ∃ t, step s = .next t ∧ t.block = edgeBlock s.params now s.block ∧
        step t = .next (afterRequest req now (afterOperation .edge now (pairState req rest s)))) ∨
    ((edgeGoesFirst req { s with inputs := rest }).1 = false ∧
      ∃ t, step s = .next t ∧
        t = { afterRequest req now (pairState req rest s) with inputs := .word (wordOf .edge now) :: rest } ∧
        step t = .next (afterOperation .edge now (afterRequest req now (pairState req rest s)))) := by
  obtain ⟨hfirst, hf⟩ | ⟨hfirst, hf⟩ := fetch_pair hin hallowed
  · refine .inl ⟨hfirst, _, (step_eq_of_fetch_eq hf).trans (step_wordOf rfl (.inr rfl) hfits), rfl, ?_⟩
    exact step_request rfl hallowed
  · have hrequest := step_request
      (s := { pairState req rest s with inputs := requestEvent req now :: .word (wordOf .edge now) :: rest })
      rfl hallowed
    have hpending := afterRequest_withInputs req now (pairState req rest s) (.word (wordOf .edge now) :: rest)
    have hrest : { afterRequest req now (pairState req rest s) with inputs := rest } =
        afterRequest req now (pairState req rest s) :=
      (afterRequest_withInputs req now (pairState req rest s) rest).symm
    have hedge := step_wordOf
      (s := { afterRequest req now (pairState req rest s) with inputs := .word (wordOf .edge now) :: rest })
      rfl (.inr rfl) (cursorFits_afterRequest hfits)
    exact .inr ⟨hfirst, _,
      (step_eq_of_fetch_eq hf).trans (hrequest.trans (congrArg Outcome.next hpending)), rfl,
      hedge.trans (congrArg (fun u => Outcome.next (afterOperation .edge now u)) hrest)⟩

end

/-- The edge of a pair on its own. -/
theorem step_edgeAlone {s : State} (now : Micros) (hfits : cursorFits s.block) :
    ∃ e, step (edgeAlone now s) = .next e ∧ e.block = edgeBlock s.params now s.block :=
  ⟨_, step_wordOf (s := edgeAlone now s) rfl (.inr rfl) hfits, rfl⟩

/-! An accessor and an edge. -/

theorem afterRequest_accessor {op : CallerOp} (h : op ≠ .start) (now : Micros) (s : State) :
    afterRequest (.op op) now s = complete s s.block (accessorValue op s.block) [] :=
  afterOperation_accessor h now s

/-- Settles O49: in either order the accessor keeps the block, and the edge leaves what it leaves alone. -/
theorem accessorAndEdgeTogether : Obligations.AccessorAndEdgeTogether := by
  intro s op now rest hsafe hin hc hop
  have hfits := hsafe.cursorFits
  obtain ⟨e, hedge, heblock⟩ := step_edgeAlone now hfits
  obtain ⟨-, t, hfirst, htblock, hsecond⟩ | ⟨-, t, hfirst, ht, hsecond⟩ :=
    step_pair hin (requestRefusal_idle (by simp) hc) hfits
  · rw [afterRequest_accessor hop] at hsecond
    exact ⟨t, _, e, hfirst, hsecond, rfl, hc, hedge, heblock.symm,
      .inr ⟨htblock.trans heblock.symm, by rw [heblock]; rfl⟩⟩
  · rw [afterRequest_accessor hop] at hsecond ht
    exact ⟨t, _, e, hfirst, hsecond, rfl, hc, hedge, heblock.symm, .inl ⟨by rw [ht]; rfl, by rw [ht]; rfl⟩⟩

/-! A turn of the caller and an edge. -/

/-- What the caller makes of a block seen by its turn, whichever turn it is. -/
theorem afterRequest_turn {s : State} (now : Micros) (h : s.caller ≠ .idle) :
    (afterRequest .turn now s).block = s.block ∧
    (afterRequest .turn now s).output =
      accessorValue (if s.caller = .polling then .state else .lastResult) s.block ∧
    (s.caller = .polling →
      (afterRequest .turn now s).caller = (if isIdle s.block.status then .collecting else .polling) ∧
      (afterRequest .turn now s).blockingReturn = s.blockingReturn) ∧
    (s.caller = .collecting →
      (afterRequest .turn now s).caller = .idle ∧
      (afterRequest .turn now s).blockingReturn = some s.block.result) := by
  cases hc : s.caller with
  | idle => exact absurd hc h
  | polling =>
    rw [afterRequest_turn_polling now hc]
    exact ⟨rfl, rfl, fun _ => ⟨rfl, rfl⟩, nofun⟩
  | collecting =>
    rw [afterRequest_turn_collecting now hc]
    exact ⟨rfl, rfl, nofun, fun _ => ⟨rfl, rfl⟩⟩

/-- Settles O55: the turn sees the block of its place in the order, and goes on by it. -/
theorem blockingReadTurnAndEdgeTogether : Obligations.BlockingReadTurnAndEdgeTogether := by
  intro s now rest hsafe hin hc
  have hfits := hsafe.cursorFits
  obtain ⟨e, hedge, heblock⟩ := step_edgeAlone now hfits
  obtain ⟨-, t, hfirst, htblock, hsecond⟩ | ⟨-, t, hfirst, ht, hsecond⟩ :=
    step_pair hin (requestRefusal_turn hc) hfits
  · obtain ⟨hblock, houtput, hpolling, hcollecting⟩ :=
      afterRequest_turn (s := afterOperation .edge now (pairState .turn rest s)) now hc
    refine ⟨t, _, e, hfirst, hsecond, ?_, hedge, hblock.trans heblock.symm, e.block,
      .inr ⟨rfl, htblock.trans heblock.symm, ?_⟩, ?_, ?_⟩
    · exact afterRequest_inputs _ _ _
    · rw [heblock]
      exact houtput
    · rw [heblock]
      exact hpolling
    · rw [heblock]
      exact hcollecting
  · obtain ⟨hblock, houtput, hpolling, hcollecting⟩ :=
      afterRequest_turn (s := pairState .turn rest s) now hc
    refine ⟨t, _, e, hfirst, hsecond, ?_, hedge, ?_, s.block, .inl ⟨rfl, ?_, ?_⟩, hpolling, hcollecting⟩
    · exact (afterOperation_inputs _ _ _).trans (afterRequest_inputs _ _ _)
    · rw [heblock]
      change edgeBlock _ now (afterRequest .turn now (pairState .turn rest s)).block = _
      rw [hblock, afterRequest_params]
      rfl
    · rw [ht]
      exact hblock
    · rw [ht]
      exact houtput

/-! A START and an edge. -/

/-- Two steps, one after the other. -/
theorem runSteps_two {s t u : State} (h : step s = .next t) (h' : step t = .next u) : runSteps 2 s = .next u := by
  rw [runSteps_succ_of_step h, runSteps_succ_of_step h']
  rfl

/-- Settles O54: the order is chosen as for a START, and the two steps differ in the caller's fields only. -/
theorem blockingReadAndEdgeTogether : Obligations.BlockingReadAndEdgeTogether := by
  intro s now rest hsafe hin hc
  have hfits := hsafe.cursorFits
  have hallowed : ∀ {req}, req ≠ .turn → requestRefusal req s.caller = none := fun h => requestRefusal_idle h hc
  have hstart := step_pair (s := { s with inputs := .together (.op .start) now :: rest }) rfl
    (hallowed (by simp)) hfits
  have horder : ∀ u, edgeGoesFirst (.op .start) u = edgeGoesFirst .blockingRead u := fun _ => rfl
  rw [horder] at hstart
  obtain ⟨hfirst, t, ht, -, hu⟩ | ⟨hfirst, t, ht, -, hu⟩ := step_pair hin (hallowed (by simp)) hfits
  · obtain ⟨-, t', ht', -, hu'⟩ | ⟨hother, -⟩ := hstart
    · exact ⟨_, runSteps_two ht' hu', runSteps_two ht hu⟩
    · exact nomatch hfirst.symm.trans hother
  · obtain ⟨hother, -⟩ | ⟨-, t', ht', -, hu'⟩ := hstart
    · exact nomatch hfirst.symm.trans hother
    · exact ⟨_, runSteps_two ht' hu', runSteps_two ht hu⟩

/-- An edge of the same clock sample that armed the attempt is judged with `elapsed` 0 (R193): too early when
ACK_MIN is positive, an acknowledgement when it is zero. -/
theorem edgeBlock_armAttempt (p : Params) (now : Micros) (b : Block) :
    edgeBlock p now (armAttempt now b) =
      if 0 < p.ackMin then raiseError .wakeUpError (armAttempt now b)
      else setStatus .reading (armAttempt now b) := by
  have helapsed : elapsed now (armAttempt now b) = 0 := BitVec.sub_self now
  by_cases hpositive : 0 < p.ackMin
  · have hsymbol : classify p (armAttempt now b).status (elapsed now (armAttempt now b)) = .ackBad :=
      classify_eq_ackBad_iff.2 ⟨rfl, .inl (by rw [helapsed]; exact hpositive)⟩
    rw [edgeBlock, hsymbol, if_pos hpositive]
    rfl
  · have hsymbol : classify p (armAttempt now b).status (elapsed now (armAttempt now b)) = .ackOk :=
      classify_eq_ackOk_iff.2 ⟨rfl, by rw [helapsed]; bv_omega, by rw [helapsed]; bv_omega⟩
    rw [edgeBlock, hsymbol, if_neg hpositive]
    rfl

theorem afterRequest_start_of_idle {s : State} (now : Micros) (h : isIdle s.block.status = true) :
    afterRequest (.op .start) now s =
      complete s (armAttempt now s.block) (some (.started true)) (wakeUpActions s.params) := if_pos h

theorem afterRequest_start_of_not_idle {s : State} (now : Micros) (h : isIdle s.block.status = false) :
    afterRequest (.op .start) now s = complete s s.block (some (.started false)) [] := if_neg (by simp [h])

/-- In a terminal status SIMUL_ORDER decides for a START, and EITHER decides nothing. -/
theorem simulOrder_of_edgeGoesFirst {s : State} {first : Bool} (hidle : isIdle s.block.status = true)
    (h : (edgeGoesFirst (.op .start) s).1 = first) :
    s.params.simulOrder = (if first then .edgeFirst else .startFirst) ∨ s.params.simulOrder = .either := by
  subst h
  cases horder : s.params.simulOrder <;> simp [edgeGoesFirst, requestStarts, hidle, horder]

/-- A pair of START and EDGE from a terminal status: the attempt is armed after the edge, or the edge is judged
against it. -/
theorem runSteps_start_and_edge_of_idle {s : State} {now : Micros} {rest : List Event}
    (hin : s.inputs = .together (.op .start) now :: rest) (hc : s.caller = .idle)
    (hidle : isIdle s.block.status = true) :
    ∃ t, ∃ first : Bool, runSteps 2 s = .next t ∧ t.inputs = rest ∧
      (s.params.simulOrder = (if first then .edgeFirst else .startFirst) ∨ s.params.simulOrder = .either) ∧
      t.block = if first then armAttempt now s.block else edgeBlock s.params now (armAttempt now s.block) := by
  obtain ⟨horder, t, hfirst, -, hsecond⟩ | ⟨horder, t, hfirst, -, hsecond⟩ :=
    step_pair hin (requestRefusal_idle (by simp) hc) (cursorFits_of_idle hidle)
  · have hstamp : (afterOperation .edge now (pairState (.op .start) rest s)).block = stampEdge now s.block :=
      edgeBlock_idle hidle
    rw [afterRequest_start_of_idle now (by rw [hstamp]; exact hidle), hstamp] at hsecond
    exact ⟨_, true, runSteps_two hfirst hsecond, rfl,
      simulOrder_of_edgeGoesFirst (s := { s with inputs := rest }) hidle horder, rfl⟩
  · rw [afterRequest_start_of_idle (s := pairState (.op .start) rest s) now hidle] at hsecond
    exact ⟨_, false, runSteps_two hfirst hsecond, rfl,
      simulOrder_of_edgeGoesFirst (s := { s with inputs := rest }) hidle horder, rfl⟩

/-- Settles O48: from a terminal status the attempt is armed in either order, and with START first the edge
meets it with `elapsed` 0; in an attempt the rejected START comes first and keeps the block. -/
theorem startAndEdgeTogether : Obligations.StartAndEdgeTogether := by
  refine fun s now rest hin hc => ⟨fun hidle => ?_, fun hsafe hbusy => ?_⟩
  · obtain ⟨t, first, hrun, hrest, horder, hblock⟩ := runSteps_start_and_edge_of_idle hin hc hidle
    rw [edgeBlock_armAttempt] at hblock
    have hkept : t.block.lastEdgeTimestamp = now ∧ t.block.data = #v[0, 0, 0, 0, 0] ∧
        t.block.bitIndex = 7 ∧ t.block.byteIndex = 0 := by
      rw [hblock]
      split
      · exact ⟨rfl, rfl, rfl, rfl⟩
      · split <;> exact ⟨rfl, rfl, rfl, rfl⟩
    obtain ⟨hstamp, hdata, hbit, hbyte⟩ := hkept
    refine ⟨t, hrun, hrest, hstamp, hdata, hbit, hbyte, ?_⟩
    intro edgeFirst startFirst
    cases first with
    | true =>
      have hedgeFirst : edgeFirst := by
        change t.block.status = .wakingUp ∧ t.block.result = s.block.result
        rw [hblock]
        exact ⟨rfl, rfl⟩
      obtain horder | horder := horder <;> rw [horder]
      · exact hedgeFirst
      · exact .inl hedgeFirst
    | false =>
      have hstartFirst : startFirst := by
        change if 0 < s.params.ackMin then _ else _
        rw [hblock]
        split <;> exact ⟨rfl, rfl⟩
      obtain horder | horder := horder <;> rw [horder]
      · exact hstartFirst
      · exact .inr hstartFirst
  · have hfits := hsafe.cursorFits
    obtain ⟨e, hedge, heblock⟩ := step_edgeAlone now hfits
    have hstartFirst := edgeGoesFirst_start_of_not_idle (req := .op .start) (s := { s with inputs := rest }) rfl hbusy
    obtain ⟨horder, -⟩ | ⟨-, t, hfirst, ht, hsecond⟩ := step_pair hin (requestRefusal_idle (by simp) hc) hfits
    · rw [hstartFirst] at horder
      cases horder
    · rw [afterRequest_start_of_not_idle (s := pairState (.op .start) rest s) now hbusy] at ht hsecond
      exact ⟨t, _, e, hfirst, by rw [ht]; rfl, by rw [ht]; rfl, by rw [ht]; rfl, hsecond, hedge, heblock.symm, rfl⟩

end Sys2Proof.Machine
end
